-- ==== Sys2Proof/Word.lean ====
section
/-! DEFINITION. The word types of the engine and the prime field they carry (`00_scope.md` R6, R10, R11). -/

namespace Sys2Proof

/-- One byte lane of the bus (`20_memory.md` R65). -/
abbrev Byte := BitVec 8

/-- A word is 32 bits, bit 0 the least significant (`00_scope.md` R10). -/
abbrev Word := BitVec 32

/-- The prime modulus `P = 2^31 - 2^27 + 1` (`00_scope.md` R6). -/
abbrev P : Nat := 2013265921

/-- `Fp`, the integers `0 .. P-1` with addition and multiplication modulo `P` (`00_scope.md` R11). -/
abbrev Fp := Fin P

/-- A state vector `s[0..15]` of 16 elements of `Fp` (`00_scope.md` R11). -/
abbrev StateVec := Fin 16 → Fp

end Sys2Proof
end

