-- ==== Sys2Proof/Config.lean ====
section
/-! DEFINITION. What one implementation fixes: the sizes of `00_scope.md` R9 and the two parameters the
spec leaves open, `RC` (R8) and `BASE` (R50), as constants with no body. -/

namespace Sys2Proof

/-- The round-constant table's shape: 21 rows of 16 words (`00_scope.md` R8). -/
abbrev RcTable := Vector (Vector Word 16) 21

/-- `RC` is well formed when every entry is `< P` (`00_scope.md` R8). -/
abbrev RcTable.WellFormed (rc : RcTable) : Prop := ∀ r : Fin 21, ∀ i : Fin 16, (rc[r][i]).toNat < P

namespace Config

/-- `BW_MAX`, the greatest tracked width (`00_scope.md` R9, D3). -/
abbrev bwMax : Nat := 256

/-- `BW_CANON`, the width of a canonical element (`00_scope.md` R6). -/
abbrev bwCanon : Nat := 31

/-- `BW_LIT`, the tracked width of a word the host writes (`00_scope.md` R9, D16). -/
abbrev bwLit : Nat := 32

/-- `CROM_SIZE`, the entries of the constant ROM (`00_scope.md` R9). -/
abbrev cromSize : Nat := 356

/-- `WINDOW`, the bytes of the register window (`00_scope.md` R9). -/
abbrev windowBytes : Nat := 4096

/-- `POISON`, what data reads return after a fatal error (`00_scope.md` R9, D17). -/
abbrev poison : Word := 0xFFFFFFFF

/-- The published table's 336 words, which the spec does not print (`00_scope.md` R8, D7,
`91_not_in_source.md` N1). DESIGN CHOICE (log 1): a constant with no body, so no proof can see a value. -/
opaque rc : RcTable

/-- `BASE / 4096`: the platform chooses the window's place (`20_memory.md` R50, D27). DESIGN CHOICE (log 2):
a constant with no body. -/
opaque basePage : Nat

/-- `BASE`, a multiple of 4096 (`20_memory.md` R50). -/
abbrev base : Nat := windowBytes * basePage

end Config
end Sys2Proof
end

