-- ==== Sys2Proof/Syntax.lean ====
section
/-! DEFINITION. The commands: one constructor per row of spec/opcode_table.json, with the operand fields of
`30_encoding.md` R81 at the range the field's bits give. The engine's own limits on `cidx` and `r` (R93) are
`Instr.wf`. -/

namespace Sys2Proof

/-- A field register index, 0 to 31 (`30_encoding.md` R81). -/
abbrev FReg := Fin 32

/-- The 9-bit `cidx` field (`30_encoding.md` R81). -/
abbrev CIdx := Fin 512

/-- The 5-bit `r` field (`30_encoding.md` R81). -/
abbrev RowField := Fin 32

/-- The 15 commands (`30_encoding.md` R89). -/
inductive Instr where
  | fldc (rd : FReg) (cidx : CIdx)
  | fadd (rd ra rb : FReg)
  | fmulc (rd ra : FReg) (cidx : CIdx)
  | fmul (rd ra rb : FReg)
  | fred (rd ra : FReg)
  | sbox (rd ra : FReg)
  | sboxf
  | sboxp
  | arcf (r : RowField)
  | arcp (r : RowField)
  | mext
  | mint
  | rndf (r : RowField)
  | rndp (r : RowField)
  | perm
deriving DecidableEq, Repr

end Sys2Proof
end

