-- ==== Sys2Proof/WellFormed.lean ====
section
/-! DEFINITION. The operand values a command may carry (`30_encoding.md` R93). -/

namespace Sys2Proof

/-- `cidx` names an entry of CROM: 0 to 355 (`30_encoding.md` R93). -/
abbrev cidxLegal (c : CIdx) : Bool := decide (c.val < Config.cromSize)

/-- `r` names a row of `RC`: 0 to 20 (`30_encoding.md` R93). -/
abbrev rowLegal (r : RowField) : Bool := decide (r.val < 21)

/-- The operands are legal (`30_encoding.md` R93): every register index is, `cidx` up to 355, `r` up to 20. -/
def Instr.wf : Instr → Bool
  | .fldc _ c => cidxLegal c
  | .fadd _ _ _ => true
  | .fmulc _ _ c => cidxLegal c
  | .fmul _ _ _ => true
  | .fred _ _ => true
  | .sbox _ _ => true
  | .sboxf => true
  | .sboxp => true
  | .arcf r => rowLegal r
  | .arcp r => rowLegal r
  | .mext => true
  | .mint => true
  | .rndf r => rowLegal r
  | .rndp r => rowLegal r
  | .perm => true

end Sys2Proof
end

