-- ==== Sys2Proof/Decode.lean ====
section
/-! DEFINITION. Decoding and encoding of command words (`30_encoding.md` R80 to R95) and the byte order of a
word on the bus (`20_memory.md` R65). -/

namespace Sys2Proof

/-- The four byte lanes of a word, lowest address first: little-endian (`20_memory.md` R65). -/
def wordBytes (w : Word) : List Byte :=
  [BitVec.ofNat 8 w.toNat, BitVec.ofNat 8 (w.toNat / 2 ^ 8), BitVec.ofNat 8 (w.toNat / 2 ^ 16),
    BitVec.ofNat 8 (w.toNat / 2 ^ 24)]

/-- The word four byte lanes carry (`20_memory.md` R65); any other number of bytes is no word. -/
def wordOfBytes : List Byte → Option Word
  | [b0, b1, b2, b3] =>
    some (BitVec.ofNat 32 (b0.toNat + b1.toNat * 2 ^ 8 + b2.toNat * 2 ^ 16 + b3.toNat * 2 ^ 24))
  | _ => none

/-- Why a word spells no command (`30_encoding.md` R91), in the order the checks are made. -/
inductive Reject where
  /-- not four bytes: a command is one 32-bit word (R80) -/
  | wrongLength
  /-- the opcode is unassigned (R95) -/
  | unassignedOpcode
  /-- a must-be-zero bit is set (R92) -/
  | mustBeZeroBitSet
  /-- `cidx` is 356 to 511 (R93) -/
  | cidxOutOfRange
  /-- `r` is 21 to 31 (R93) -/
  | rowOutOfRange
deriving DecidableEq, Repr

/-- The unsigned number in the `len` bits of `w` from bit `lo` up: `w[lo+len-1:lo]` (`00_scope.md` R10). -/
def bitField (w : Word) (lo len : Nat) : Nat := w.toNat / 2 ^ lo % 2 ^ len

/-- `op = w[31:26]` (`30_encoding.md` R81). -/
def fieldOp (w : Word) : Nat := bitField w 26 6

/-- `rd = w[25:21]` (`30_encoding.md` R81). -/
def fieldRd (w : Word) : FReg := Fin.ofNat 32 (bitField w 21 5)

/-- `ra = w[20:16]` (`30_encoding.md` R81). -/
def fieldRa (w : Word) : FReg := Fin.ofNat 32 (bitField w 16 5)

/-- `rb = w[15:11]` (`30_encoding.md` R81). -/
def fieldRb (w : Word) : FReg := Fin.ofNat 32 (bitField w 11 5)

/-- `cidx = w[8:0]` (`30_encoding.md` R81). -/
def fieldCidx (w : Word) : CIdx := Fin.ofNat 512 (bitField w 0 9)

/-- `r = w[4:0]` (`30_encoding.md` R81). -/
def fieldRow (w : Word) : RowField := Fin.ofNat 32 (bitField w 0 5)

/-- Which operand check a command can fail (`30_encoding.md` R91, R93): `cidx` in formats C1 and C2, else `r`. -/
def Instr.operandReject : Instr → Reject
  | .fldc _ _ => .cidxOutOfRange
  | .fmulc _ _ _ => .cidxOutOfRange
  | _ => .rowOutOfRange

/-- The checks of `30_encoding.md` R91 after the opcode: the must-be-zero bits `mbz` (R92), then the operand
values (R93). -/
def checkWord (mbz : Nat) (i : Instr) : Except Reject Instr :=
  if mbz = 0 then (if i.wf then .ok i else .error i.operandReject) else .error .mustBeZeroBitSet

/-- The decode procedure, total on all words (`30_encoding.md` R91): opcode, must-be-zero bits, operands. -/
def decodeWord (w : Word) : Except Reject Instr :=
  match fieldOp w with
  | 0x01 => checkWord (bitField w 9 12) (.fldc (fieldRd w) (fieldCidx w))
  | 0x02 => checkWord (bitField w 0 11) (.fadd (fieldRd w) (fieldRa w) (fieldRb w))
  | 0x03 => checkWord (bitField w 9 7) (.fmulc (fieldRd w) (fieldRa w) (fieldCidx w))
  | 0x04 => checkWord (bitField w 0 11) (.fmul (fieldRd w) (fieldRa w) (fieldRb w))
  | 0x05 => checkWord (bitField w 0 16) (.fred (fieldRd w) (fieldRa w))
  | 0x08 => checkWord (bitField w 0 16) (.sbox (fieldRd w) (fieldRa w))
  | 0x09 => checkWord (bitField w 0 26) .sboxf
  | 0x0A => checkWord (bitField w 0 26) .sboxp
  | 0x0C => checkWord (bitField w 5 21) (.arcf (fieldRow w))
  | 0x0D => checkWord (bitField w 5 21) (.arcp (fieldRow w))
  | 0x10 => checkWord (bitField w 0 26) .mext
  | 0x11 => checkWord (bitField w 0 26) .mint
  | 0x14 => checkWord (bitField w 5 21) (.rndf (fieldRow w))
  | 0x15 => checkWord (bitField w 5 21) (.rndp (fieldRow w))
  | 0x18 => checkWord (bitField w 0 26) .perm
  | _ => .error .unassignedOpcode

/-- Decoding of the bytes of a bus write: four bytes are one word (`20_memory.md` R65), anything else is none. -/
def decodeBytes (bs : List Byte) : Except Reject Instr :=
  match wordOfBytes bs with
  | some w => decodeWord w
  | none => .error .wrongLength

/-- `Instr.opcode`: the `op` column of `30_encoding.md` R89. -/
def Instr.opcode : Instr → Nat
  | .fldc _ _ => 0x01
  | .fadd _ _ _ => 0x02
  | .fmulc _ _ _ => 0x03
  | .fmul _ _ _ => 0x04
  | .fred _ _ => 0x05
  | .sbox _ _ => 0x08
  | .sboxf => 0x09
  | .sboxp => 0x0A
  | .arcf _ => 0x0C
  | .arcp _ => 0x0D
  | .mext => 0x10
  | .mint => 0x11
  | .rndf _ => 0x14
  | .rndp _ => 0x15
  | .perm => 0x18

/-- The mnemonic column of `30_encoding.md` R89. -/
def Instr.mnemonic : Instr → String
  | .fldc _ _ => "FLDC"
  | .fadd _ _ _ => "FADD"
  | .fmulc _ _ _ => "FMULC"
  | .fmul _ _ _ => "FMUL"
  | .fred _ _ => "FRED"
  | .sbox _ _ => "SBOX"
  | .sboxf => "SBOXF"
  | .sboxp => "SBOXP"
  | .arcf _ => "ARCF"
  | .arcp _ => "ARCP"
  | .mext => "MEXT"
  | .mint => "MINT"
  | .rndf _ => "RNDF"
  | .rndp _ => "RNDP"
  | .perm => "PERM"

/-- The operand bits of a command at the places of `30_encoding.md` R82 to R87. -/
def Instr.operandBits : Instr → Nat
  | .fldc rd c => rd.val * 2 ^ 21 + c.val
  | .fadd rd ra rb => rd.val * 2 ^ 21 + ra.val * 2 ^ 16 + rb.val * 2 ^ 11
  | .fmulc rd ra c => rd.val * 2 ^ 21 + ra.val * 2 ^ 16 + c.val
  | .fmul rd ra rb => rd.val * 2 ^ 21 + ra.val * 2 ^ 16 + rb.val * 2 ^ 11
  | .fred rd ra => rd.val * 2 ^ 21 + ra.val * 2 ^ 16
  | .sbox rd ra => rd.val * 2 ^ 21 + ra.val * 2 ^ 16
  | .sboxf => 0
  | .sboxp => 0
  | .arcf r => r.val
  | .arcp r => r.val
  | .mext => 0
  | .mint => 0
  | .rndf r => r.val
  | .rndp r => r.val
  | .perm => 0

/-- The encoding functions of `30_encoding.md` R90. The fields do not overlap, so the rule's `|` is `+`. -/
def encode (i : Instr) : Word := BitVec.ofNat 32 (i.opcode * 2 ^ 26 + i.operandBits)

/-- The instruction read from the table's bits: the `nbits` low bits of `w`, zeros above, laid out as the bus
carries a word and given to the decoder. -/
def decodeTableWord (nbits w : Nat) : Option Instr :=
  if w % 2 ^ nbits < 2 ^ 32 then
    (decodeBytes (wordBytes (BitVec.ofNat 32 (w % 2 ^ nbits)))).toOption
  else none

/-- What a row of `30_encoding.md` R89 limits beside its mask. -/
inductive OperandLimit where
  | anyOperand
  | cidxUpTo355
  | rowUpTo20
deriving DecidableEq, Repr

/-- The operand values a row allows (`30_encoding.md` R91, R93). -/
def OperandLimit.allows (l : OperandLimit) (w : Word) : Prop :=
  match l with
  | .anyOperand => True
  | .cidxUpTo355 => bitField w 0 9 ≤ 355
  | .rowUpTo20 => bitField w 0 5 ≤ 20

/-- One row of the opcode map (`30_encoding.md` R89). -/
structure OpcodeRow where
  mnemonic : String
  matchBits : Word
  mask : Word
  limit : OperandLimit
deriving DecidableEq, Repr

/-- `w` spells this row's command: `w & mask = match` and its operand fields are legal (`30_encoding.md` R89). -/
def OpcodeRow.spells (row : OpcodeRow) (w : Word) : Prop :=
  w &&& row.mask = row.matchBits ∧ row.limit.allows w

/-- The opcode map of `30_encoding.md` R89, row by row. The decoder does not read it: that the two agree is a
statement. -/
def opcodeMap : List OpcodeRow :=
  [⟨"FLDC", 0x04000000, 0xFC1FFE00, .cidxUpTo355⟩,
   ⟨"FADD", 0x08000000, 0xFC0007FF, .anyOperand⟩,
   ⟨"FMULC", 0x0C000000, 0xFC00FE00, .cidxUpTo355⟩,
   ⟨"FMUL", 0x10000000, 0xFC0007FF, .anyOperand⟩,
   ⟨"FRED", 0x14000000, 0xFC00FFFF, .anyOperand⟩,
   ⟨"SBOX", 0x20000000, 0xFC00FFFF, .anyOperand⟩,
   ⟨"SBOXF", 0x24000000, 0xFFFFFFFF, .anyOperand⟩,
   ⟨"SBOXP", 0x28000000, 0xFFFFFFFF, .anyOperand⟩,
   ⟨"ARCF", 0x30000000, 0xFFFFFFE0, .rowUpTo20⟩,
   ⟨"ARCP", 0x34000000, 0xFFFFFFE0, .rowUpTo20⟩,
   ⟨"MEXT", 0x40000000, 0xFFFFFFFF, .anyOperand⟩,
   ⟨"MINT", 0x44000000, 0xFFFFFFFF, .anyOperand⟩,
   ⟨"RNDF", 0x50000000, 0xFFFFFFE0, .rowUpTo20⟩,
   ⟨"RNDP", 0x54000000, 0xFFFFFFE0, .rowUpTo20⟩,
   ⟨"PERM", 0x60000000, 0xFFFFFFFF, .anyOperand⟩]

end Sys2Proof
end

