-- ==== Sys2Proof/Machine/Crom.lean ====
section
/-! DEFINITION. The constant ROM: its layout and its contents, less `RC` (`10_state.md` R26, R27), and the check
that reset makes of it (`70_reset_and_hazards.md` R243). -/

namespace Sys2Proof.Machine

/-- `DIAG[0..15]`, the internal diagonal matrix (`00_scope.md` R6; `90_conflicts.md` C3: 16384 is absent). -/
def diagWords : Vector Word 16 :=
  #v[0x77FFFFFF, 1, 2, 4, 8, 16, 32, 64, 128, 256, 512, 1024, 2048, 4096, 8192, 32768]

/-- `MONTY_INV`, the Montgomery correction constant (`00_scope.md` R6). -/
def montyInv : Word := 943718400

/-- `CROM[k]` (`10_state.md` R27): the table row by row, `DIAG`, `MONTY_INV`, 0, 1, 2; indices from 356 up do
not exist. -/
def cromAt (rc : RcTable) (k : Nat) : Option Word :=
  if h : k < 336 then some ((rc[k / 16]'(by omega))[k % 16]'(Nat.mod_lt _ (by decide)))
  else if h : k < 352 then some (diagWords[k - 336]'(by omega))
  else if k = 352 then some montyInv
  else if k = 353 then some 0
  else if k = 354 then some 1
  else if k = 355 then some 2
  else none

/-- Entry `k` exists and is `>= P`: a member of `bad` (`70_reset_and_hazards.md` R243). -/
def cromBad (rc : RcTable) (k : Nat) : Bool :=
  match cromAt rc k with
  | some c => decide (P ≤ c.toNat)
  | none => false

/-- `min(bad)`: the least `k` in 0..355 with `CROM[k] >= P`, if there is one (`70_reset_and_hazards.md` R243). -/
def firstBad (rc : RcTable) : Option Nat := (List.range 356).find? (cromBad rc)

end Sys2Proof.Machine
end

