-- ==== Sys2Proof/Machine/State.lean ====
section
/-! DEFINITION. The state of one engine (`10_state.md` R20 to R37), the host interface it is driven through, and
the state after reset. -/

namespace Sys2Proof.Machine

/-- A field register: the pair `(val, bw)` of an unreduced integer and its tracked bit-width (`10_state.md` R20).
DESIGN CHOICE (log 8): both are exact numbers; that they fit 256 and 9 bits is the invariant of R21. -/
structure FieldReg where
  val : Nat
  bw : Nat
deriving DecidableEq, Repr

/-- The cause of the first error since reset, the value of `ERR` (`60_exceptions.md` R200). -/
inductive ErrCode where
  | noError
  | cfg
  | arithOverflow
  | illegalCmd
  | busAccess
deriving DecidableEq, Repr

/-- The sequencer's phase inside `PERM` (`10_state.md` R24, `43_permutation_engine.md` R187). -/
inductive Phase where
  | idle
  | init
  | ext1
  | int
  | ext2
deriving DecidableEq, Repr

/-- What the outside world does to one engine, one event at a time (`00_scope.md` R14, `20_memory.md` R69). An
access is named by its offset in the window (`20_memory.md` R50); a write carries its bytes, lowest address first. -/
inductive BusEvent where
  /-- a bus read of `size` bytes at `off` -/
  | read (off : BitVec 12) (size : Nat)
  /-- a bus write of the bytes `data` at `off` -/
  | write (off : BitVec 12) (data : List Byte)
  /-- the reset input is driven to this level (`70_reset_and_hazards.md` R240) -/
  | resetPin (asserted : Bool)
deriving DecidableEq, Repr

/-- The state of one engine. `regs` to `rnd` are the spec's (`10_state.md` R37); `rc` is the open parameter `RC`
carried along (R26: nothing changes it; log 1); `resetLine`, `pending`, `reply` are the host interface
(log 4, log 9, log 10). -/
@[ext]
structure State where
  /-- `F[0..31]` (R20); `S[i]` is `F[i]`, `T[j]` is `F[16 + j]` (R22) -/
  regs : Vector FieldReg 32
  /-- `FATAL` (R28) -/
  fatal : Bool
  /-- `ERR` (R30) -/
  err : ErrCode
  /-- `ERRINFO` (R31) -/
  errInfo : Word
  /-- `PHASE` (R24) -/
  phase : Phase
  /-- `RND` (R24) -/
  rnd : Fin 21
  /-- the table `RC` in the constant ROM (R27) -/
  rc : RcTable
  /-- the reset input is asserted (`70_reset_and_hazards.md` R240) -/
  resetLine : Bool
  /-- what the outside world has issued and the engine has not served, oldest first (`20_memory.md` R69) -/
  pending : List BusEvent
  /-- the bytes the last served event returned on the bus, lowest address first; none if it returned nothing -/
  reply : Option (List Byte)
deriving DecidableEq, Repr

/-- There is no stop: "every access in every state has a defined outcome" (`60_exceptions.md` R223), and every
error is a next state with FATAL set (R206). No constructor, so nobody raises one; safe (log 5). -/
inductive Fault where
deriving DecidableEq, Repr

/-- Why the model gives an instruction no meaning. -/
inductive Refusal where
  /-- raised by `exec` alone, for a command the model gives no meaning; safe, and no command of this model is
  refused -/
  | notModelled (mnemonic : String)
deriving DecidableEq, Repr

/-- The state a reset leaves with the table `rc` (`10_state.md` R37, `70_reset_and_hazards.md` R242, R243): every
field register canonical zero, the sequencer idle, and the reset check's verdict. The host interface is quiet
(DESIGN CHOICE, log 4, log 9, log 10). -/
def State.resetWith (rc : RcTable) : State where
  regs := Vector.replicate 32 ⟨0, 31⟩
  fatal := (firstBad rc).isSome
  err := if (firstBad rc).isSome then .cfg else .noError
  errInfo := BitVec.ofNat 32 ((firstBad rc).getD 0)
  phase := .idle
  rnd := 0
  rc := rc
  resetLine := false
  pending := []
  reply := none

/-- The machine right after reset, with the open table `Config.rc` (log 1). -/
def State.reset : State := State.resetWith Config.rc

end Sys2Proof.Machine
end

