-- ==== Sys2Proof/Machine/Operands.lean ====
section
/-! DEFINITION. Reading and writing field registers, and the operand forms of the commands (`00_scope.md` R12,
`30_encoding.md` R88). -/

namespace Sys2Proof.Machine

/-- The element of `Fp` an integer denotes: `v mod P` (`40_field_unit.md` R112, R115). -/
def toFp (v : Nat) : Fp := ⟨v % P, Nat.mod_lt _ (by decide)⟩

/-- `F[i]` (`00_scope.md` R12). -/
def State.reg (s : State) (i : FReg) : FieldReg := s.regs[i]

/-- `F[i] <- r` (`00_scope.md` R12). No register is hardwired and none aliases another (`10_state.md` R22). -/
def State.setReg (s : State) (i : FReg) (r : FieldReg) : State := { s with regs := s.regs.set i r }

/-- `canon(i) = F[i].val mod P` (`00_scope.md` R12). -/
def State.canon (s : State) (i : FReg) : Fp := toFp (s.reg i).val

/-- `S[i]` is `F[i]` (`00_scope.md` R12). -/
def sReg (i : Fin 16) : FReg := ⟨i.val, by omega⟩

/-- `T[j]` is `F[16 + j]` (`00_scope.md` R12). -/
def tReg (j : Fin 16) : FReg := ⟨16 + j.val, by omega⟩

/-- `Sv`, the state vector `[canon(0), ..., canon(15)]` (`00_scope.md` R12). -/
def State.stateVec (s : State) : StateVec := fun i => s.canon (sReg i)

/-- A register holding a reduced value: `(v, 31)` (`40_field_unit.md` R119). -/
def reduced (x : Fp) : FieldReg := ⟨x.val, Config.bwCanon⟩

/-- The register file after `S <- v`: `F[i] <- (v[i], 31)` for `0 <= i < 16`, the others as they are
(`00_scope.md` R12). Irreducible, so that comparing two states does not unroll it: `getElem_stateRegs` says all. -/
@[irreducible]
def stateRegs (regs : Vector FieldReg 32) (v : StateVec) : Vector FieldReg 32 :=
  Vector.ofFn fun i : Fin 32 => if h : i.val < 16 then reduced (v ⟨i.val, h⟩) else regs[i]

/-- `S <- v` (`00_scope.md` R12). -/
def State.setStateVec (s : State) (v : StateVec) : State := { s with regs := stateRegs s.regs v }

/-- The `cidx` operand: `CROM[cidx]`, absent from 356 up (`30_encoding.md` R88, R93). -/
def State.constant (s : State) (c : CIdx) : Option Word := cromAt s.rc c.val

/-- The `r` operand as a row of `RC`, absent from 21 up (`30_encoding.md` R88, R93). -/
def rowOperand (r : RowField) : Option (Fin 21) := if h : r.val < 21 then some ⟨r.val, h⟩ else none

/-- `RC[r][i] mod P` (`43_permutation_engine.md` R176; `90_conflicts.md` C6: the word is taken as a plain integer). -/
def rcElem (rc : RcTable) (r : Fin 21) (i : Fin 16) : Fp := toFp (rc[r][i]).toNat

/-- `CROM[k] mod P` for one of the constants the layers use. -/
def diagElem (i : Fin 16) : Fp := toFp (diagWords[i]).toNat

end Sys2Proof.Machine
end

