-- ==== Sys2Proof/Machine/Flags.lean ====
section
/-! DEFINITION. There are no condition codes (`10_state.md` R25). What stands in their place: the tracked widths
(`40_field_unit.md` R116 to R119), the overflow check on them (R114), and the error code (`60_exceptions.md` R200). -/

namespace Sys2Proof.Machine

/-- `bitlen(c)`: the least `n` with `c < 2^n` (`00_scope.md` R10). -/
def bitlen (c : Nat) : Nat := if c = 0 then 0 else Nat.log2 c + 1

/-- The width of a sum (`40_field_unit.md` R116). -/
def sumWidth (a b : FieldReg) : Nat := max a.bw b.bw + 1

/-- The width of a product by a constant (`40_field_unit.md` R117). -/
def mulConstWidth (a : FieldReg) (c : Word) : Nat := a.bw + bitlen c.toNat

/-- The width of a product (`40_field_unit.md` R118). -/
def mulWidth (a b : FieldReg) : Nat := a.bw + b.bw

/-- A result of this tracked width cannot be held (`40_field_unit.md` R114). -/
def tooWide (bw : Nat) : Bool := decide (Config.bwMax < bw)

/-- The 4-bit value of `ERR` (`60_exceptions.md` R200). -/
def ErrCode.code : ErrCode → BitVec 4
  | .noError => 0
  | .cfg => 1
  | .arithOverflow => 2
  | .illegalCmd => 3
  | .busAccess => 4

/-- The level output `fatal`, equal to `FATAL` (`60_exceptions.md` R210). -/
def State.fatalOut (s : State) : Bool := s.fatal

end Sys2Proof.Machine
end

