-- ==== Sys2Proof/Machine/Ops.lean ====
section
/-! DEFINITION. The shared operations: entering the fatal state and leaving it by reset (`60_exceptions.md` R206,
R208), the result of a field-unit producer, and the operands that may not exist. -/

namespace Sys2Proof.Machine

/-- What a command answers. -/
abbrev Result := Host.Outcome State Fault Refusal

/-- `raise <Error>(info)` (`60_exceptions.md` R206): FATAL, ERR and ERRINFO are set and nothing else changes. While
FATAL = 1 nothing raises, so the first error stays (R207, R208). -/
def raise (cause : ErrCode) (info : Word) (s : State) : State :=
  if s.fatal then s else { s with fatal := true, err := cause, errInfo := info }

/-- Reset, the one way out of the fatal state (`60_exceptions.md` R208, `70_reset_and_hazards.md` R241, R242): the
reset state with the same ROM (R244). What the outside world has issued, the reset input and the bus reply are not
the engine's to clear (log 12). -/
def resetEngine (s : State) : State :=
  { State.resetWith s.rc with resetLine := s.resetLine, pending := s.pending, reply := s.reply }

/-- The reset input is driven to a level (`70_reset_and_hazards.md` R240): when it is released the engine is in the
reset state. DESIGN CHOICE (log 10): while it is asserted the registers stand still. -/
def driveReset (asserted : Bool) (s : State) : State :=
  if s.resetLine && !asserted then resetEngine { s with resetLine := false } else { s with resetLine := asserted }

/-- The end of `FADD`, `FMULC`, `FMUL` (`40_field_unit.md` R114): `ARITH_OVERFLOW(w)` and no write when the result is
too wide, else `F[rd] <- r`. `w`, the command word, is `encode i` (DEDUCED from `30_encoding.md` R96, log 7). -/
def produce (i : Instr) (rd : FReg) (r : FieldReg) (s : State) : State :=
  if tooWide r.bw then raise .arithOverflow (encode i) s else s.setReg rd r

/-- Continue with `CROM[cidx]`. A `cidx` that names no entry is illegal (`30_encoding.md` R93, R94; log 6). -/
def withConstant (i : Instr) (c : CIdx) (s : State) (k : Word → State) : State :=
  match s.constant c with
  | some w => k w
  | none => raise .illegalCmd (encode i) s

/-- Continue with row `r` of `RC`. An `r` that names no row is illegal (`30_encoding.md` R93, R94; log 6). -/
def withRow (i : Instr) (r : RowField) (s : State) (k : Fin 21 → State) : State :=
  match rowOperand r with
  | some row => k row
  | none => raise .illegalCmd (encode i) s

end Sys2Proof.Machine
end

