-- ==== Sys2Proof/Machine/FieldUnit.lean ====
section
/-! DEFINITION. The field-element arithmetic unit: exact unsigned arithmetic on `(val, bw)` pairs
(`40_field_unit.md` R110 to R126). -/

namespace Sys2Proof.Machine

/-- `FLDC rd, cidx` (`40_field_unit.md` R122). -/
def execFldc (rd : FReg) (c : CIdx) (s : State) : Result :=
  .next (withConstant (.fldc rd c) c s fun w => s.setReg rd ⟨w.toNat, Config.bwCanon⟩)

/-- `FADD rd, ra, rb` (`40_field_unit.md` R123). -/
def execFadd (rd ra rb : FReg) (s : State) : Result :=
  .next (produce (.fadd rd ra rb) rd ⟨(s.reg ra).val + (s.reg rb).val, sumWidth (s.reg ra) (s.reg rb)⟩ s)

/-- `FMULC rd, ra, cidx` (`40_field_unit.md` R124). -/
def execFmulc (rd ra : FReg) (c : CIdx) (s : State) : Result :=
  .next (withConstant (.fmulc rd ra c) c s fun w =>
    produce (.fmulc rd ra c) rd ⟨(s.reg ra).val * w.toNat, mulConstWidth (s.reg ra) w⟩ s)

/-- `FMUL rd, ra, rb` (`40_field_unit.md` R125). -/
def execFmul (rd ra rb : FReg) (s : State) : Result :=
  .next (produce (.fmul rd ra rb) rd ⟨(s.reg ra).val * (s.reg rb).val, mulWidth (s.reg ra) (s.reg rb)⟩ s)

/-- `FRED rd, ra` (`40_field_unit.md` R126). -/
def execFred (rd ra : FReg) (s : State) : Result :=
  .next (s.setReg rd (reduced (s.canon ra)))

end Sys2Proof.Machine
end

