-- ==== Sys2Proof/Machine/Linear.lean ====
section
/-! DEFINITION. The two linear layers (`42_linear_layers.md` R155 to R167). -/

namespace Sys2Proof.Machine

/-- `MAT4`, the per-block map (`42_linear_layers.md` R156): output `k` of the inputs `s0 .. s3`. -/
def mat4 (s0 s1 s2 s3 : Fp) (k : Fin 4) : Fp :=
  let t01 := s0 + s1
  let t23 := s2 + s3
  let t0123 := t01 + t23
  match k with
  | 0 => (t0123 + s1) + t01
  | 1 => (t0123 + s1) + 2 * s2
  | 2 => (t0123 + s3) + t23
  | 3 => (t0123 + s3) + 2 * s0

/-- Index `4b + k` of a state vector: element `k` of block `b` (`42_linear_layers.md` R157). -/
def blockIdx (b k : Fin 4) : Fin 16 := ⟨4 * b.val + k.val, by omega⟩

/-- `i div 4`, the block of index `i` (`42_linear_layers.md` R159). -/
def blockOf (i : Fin 16) : Fin 4 := ⟨i.val / 4, by omega⟩

/-- `i mod 4`, the place of index `i` in its block (`42_linear_layers.md` R157). -/
def laneOf (i : Fin 16) : Fin 4 := ⟨i.val % 4, by omega⟩

/-- Step 1 of `EXT`: each block mixed by `MAT4` (`42_linear_layers.md` R157). -/
def blockMix (s : StateVec) : StateVec := fun i =>
  mat4 (s (blockIdx (blockOf i) 0)) (s (blockIdx (blockOf i) 1)) (s (blockIdx (blockOf i) 2))
    (s (blockIdx (blockOf i) 3)) (laneOf i)

/-- Step 2 of `EXT`: `sums[k]` over the block-mixed values (`42_linear_layers.md` R157, D10). -/
def laneSum (u : StateVec) (k : Fin 4) : Fp :=
  u (blockIdx 0 k) + u (blockIdx 1 k) + u (blockIdx 2 k) + u (blockIdx 3 k)

/-- `EXT`, the external linear layer (`42_linear_layers.md` R157). -/
def ext (s : StateVec) : StateVec := fun i => blockMix s i + laneSum (blockMix s) (laneOf i)

/-- `sum`: all 16 elements (`42_linear_layers.md` R162 step 1). -/
def totalSum (s : StateVec) : Fp :=
  s 0 + s 1 + s 2 + s 3 + s 4 + s 5 + s 6 + s 7 + s 8 + s 9 + s 10 + s 11 + s 12 + s 13 + s 14 + s 15

/-- `INT`, the internal linear layer (`42_linear_layers.md` R162): the correction applies to the whole of `v[i]`
(R163, `90_conflicts.md` C5). -/
def int (s : StateVec) : StateVec := fun i => (s i * diagElem i + totalSum s) * toFp montyInv.toNat

/-- `MEXT` (`42_linear_layers.md` R161). -/
def execMext (s : State) : Result := .next (s.setStateVec (ext s.stateVec))

/-- `MINT` (`42_linear_layers.md` R167). -/
def execMint (s : State) : Result := .next (s.setStateVec (int s.stateVec))

end Sys2Proof.Machine
end

