-- ==== Sys2Proof/Machine/SBox.lean ====
section
/-! DEFINITION. The S-box, the degree-7 power map (`41_sbox.md` R140 to R145). -/

namespace Sys2Proof.Machine

/-- `SBOX7(x) = x^7 mod P` (`41_sbox.md` R140; R142: the chain of multiplications is not observable). -/
def sbox7 (x : Fp) : Fp := toFp (x.val ^ 7)

/-- `SBOXALL(s)[i] = SBOX7(s[i])` (`43_permutation_engine.md` R179). -/
def sboxAll (s : StateVec) : StateVec := fun i => sbox7 (s i)

/-- `SBOX0`: the S-box on element 0, the others as they are (`43_permutation_engine.md` R180). -/
def sbox0 (s : StateVec) : StateVec := fun i => if i = 0 then sbox7 (s i) else s i

/-- `SBOX rd, ra` (`41_sbox.md` R143): any representation is accepted (R141). -/
def execSbox (rd ra : FReg) (s : State) : Result :=
  .next (s.setReg rd (reduced (sbox7 (s.canon ra))))

/-- `SBOXF` (`41_sbox.md` R144). -/
def execSboxf (s : State) : Result := .next (s.setStateVec (sboxAll s.stateVec))

/-- `SBOXP` (`41_sbox.md` R145): `S[1..15]` keep their `(val, bw)`. -/
def execSboxp (s : State) : Result := .next (s.setReg 0 (reduced (sbox7 (s.canon 0))))

end Sys2Proof.Machine
end

