-- ==== Sys2Proof/Machine/Permutation.lean ====
section
/-! DEFINITION. Round constants, rounds, the permutation and the sequencer that walks it
(`43_permutation_engine.md` R175 to R188). -/

namespace Sys2Proof.Machine

/-- `ARCALL(s, r)` (`43_permutation_engine.md` R176). -/
def arcAll (rc : RcTable) (r : Fin 21) (s : StateVec) : StateVec := fun i => s i + rcElem rc r i

/-- `ARC0(s, r)` (`43_permutation_engine.md` R176): element 0 only. -/
def arc0 (rc : RcTable) (r : Fin 21) (s : StateVec) : StateVec := fun i => if i = 0 then s i + rcElem rc r 0 else s i

/-- `ROUND_F(s, r)` (`43_permutation_engine.md` R179). -/
def roundF (rc : RcTable) (r : Fin 21) (s : StateVec) : StateVec := ext (sboxAll (arcAll rc r s))

/-- `ROUND_P(s, r)` (`43_permutation_engine.md` R180). -/
def roundP (rc : RcTable) (r : Fin 21) (s : StateVec) : StateVec := int (sbox0 (arc0 rc r s))

/-- `PERMUTE`, as the loop of `43_permutation_engine.md` R183: rows 0 to 3, 4 to 16, 17 to 20. -/
def permute (rc : RcTable) (s : StateVec) : StateVec :=
  let s1 := ([0, 1, 2, 3] : List (Fin 21)).foldl (fun t r => roundF rc r t) (ext s)
  let s2 := ([4, 5, 6, 7, 8, 9, 10, 11, 12, 13, 14, 15, 16] : List (Fin 21)).foldl (fun t r => roundP rc r t) s1
  ([17, 18, 19, 20] : List (Fin 21)).foldl (fun t r => roundF rc r t) s2

/-- The sequencer starts on `PERM` (`43_permutation_engine.md` R187, first row). -/
def seqStart (s : State) : State := { s with phase := .init, rnd := 0 }

/-- One transition of the sequencer (`43_permutation_engine.md` R187). In `IDLE` it does nothing. -/
def seqStep (s : State) : State :=
  match s.phase with
  | .idle => s
  | .init => { s.setStateVec (ext s.stateVec) with phase := .ext1, rnd := 0 }
  | .ext1 =>
    { s.setStateVec (roundF s.rc s.rnd s.stateVec) with
      phase := if s.rnd.val < 3 then .ext1 else .int, rnd := if s.rnd.val < 3 then s.rnd + 1 else 4 }
  | .int =>
    { s.setStateVec (roundP s.rc s.rnd s.stateVec) with
      phase := if s.rnd.val < 16 then .int else .ext2, rnd := if s.rnd.val < 16 then s.rnd + 1 else 17 }
  | .ext2 =>
    { s.setStateVec (roundF s.rc s.rnd s.stateVec) with
      phase := if s.rnd.val < 20 then .ext2 else .idle, rnd := if s.rnd.val < 20 then s.rnd + 1 else 0 }

/-- `n` transitions of the sequencer. -/
def seqRun : Nat → State → State
  | 0, s => s
  | n + 1, s => seqRun n (seqStep s)

/-- `ARCF r` (`43_permutation_engine.md` R177). -/
def execArcf (r : RowField) (s : State) : Result :=
  .next (withRow (.arcf r) r s fun row => s.setStateVec (arcAll s.rc row s.stateVec))

/-- `ARCP r` (`43_permutation_engine.md` R178): `S[1..15]` keep their `(val, bw)`. -/
def execArcp (r : RowField) (s : State) : Result :=
  .next (withRow (.arcp r) r s fun row => s.setReg 0 (reduced (s.canon 0 + rcElem s.rc row 0)))

/-- `RNDF r` (`43_permutation_engine.md` R181). -/
def execRndf (r : RowField) (s : State) : Result :=
  .next (withRow (.rndf r) r s fun row => s.setStateVec (roundF s.rc row s.stateVec))

/-- `RNDP r` (`43_permutation_engine.md` R182). -/
def execRndp (r : RowField) (s : State) : Result :=
  .next (withRow (.rndp r) r s fun row => s.setStateVec (roundP s.rc row s.stateVec))

/-- `PERM` (`43_permutation_engine.md` R185), run by the sequencer from `IDLE` to `IDLE`: 1 + 4 + 13 + 4 = 22
transitions (R187, R188). That this is `S <- PERMUTE(Sv)` is a statement (log 16). -/
def execPerm (s : State) : Result := .next (seqRun 22 (seqStart s))

end Sys2Proof.Machine
end

