-- ==== Sys2Proof/Machine/Dispatch.lean ====
section
/-! DEFINITION. One arm per command. -/

namespace Sys2Proof.Machine

def exec (i : Instr) (s : State) : Host.Outcome State Fault Refusal :=
  match i with
  | .fldc rd c => Sys2Proof.Machine.execFldc rd c s
  | .fadd rd ra rb => Sys2Proof.Machine.execFadd rd ra rb s
  | .fmulc rd ra c => Sys2Proof.Machine.execFmulc rd ra c s
  | .fmul rd ra rb => Sys2Proof.Machine.execFmul rd ra rb s
  | .fred rd ra => Sys2Proof.Machine.execFred rd ra s
  | .sbox rd ra => Sys2Proof.Machine.execSbox rd ra s
  | .sboxf => Sys2Proof.Machine.execSboxf s
  | .sboxp => Sys2Proof.Machine.execSboxp s
  | .arcf r => Sys2Proof.Machine.execArcf r s
  | .arcp r => Sys2Proof.Machine.execArcp r s
  | .mext => Sys2Proof.Machine.execMext s
  | .mint => Sys2Proof.Machine.execMint s
  | .rndf r => Sys2Proof.Machine.execRndf r s
  | .rndp r => Sys2Proof.Machine.execRndp r s
  | .perm => Sys2Proof.Machine.execPerm s

end Sys2Proof.Machine
end

