-- ==== Sys2Proof/Machine/Bus.lean ====
section
/-! DEFINITION. The register window: its map, its access rules and what each access does (`20_memory.md` R50 to
R68), and the host's bus as the source of the engine's events (`00_scope.md` R13, R14). -/

namespace Sys2Proof.Machine

/-- A register of the window (`20_memory.md` R51). -/
inductive WindowReg where
  | cmd
  | status
  | err
  | errInfo
  | cfg
  | ctrl
  | f (i : Fin 32)
  | fbw (i : Fin 32)
  | cromw (k : Fin 356)
deriving DecidableEq, Repr

/-- The offset of a register (`20_memory.md` R51). -/
def WindowReg.offset : WindowReg → Nat
  | .cmd => 0x000
  | .status => 0x004
  | .err => 0x008
  | .errInfo => 0x00C
  | .cfg => 0x010
  | .ctrl => 0x014
  | .f i => 0x080 + 4 * i.val
  | .fbw i => 0x100 + 4 * i.val
  | .cromw k => 0x800 + 4 * k.val

/-- The register at an offset (`20_memory.md` R51): none where the offset is unmapped or no multiple of 4 (R52,
R67). -/
def windowAt (off : BitVec 12) : Option WindowReg :=
  let n := off.toNat
  if n % 4 ≠ 0 then none
  else if n = 0x000 then some .cmd
  else if n = 0x004 then some .status
  else if n = 0x008 then some .err
  else if n = 0x00C then some .errInfo
  else if n = 0x010 then some .cfg
  else if n = 0x014 then some .ctrl
  else if h : 0x080 ≤ n ∧ n < 0x100 then some (.f ⟨(n - 0x080) / 4, by omega⟩)
  else if h : 0x100 ≤ n ∧ n < 0x180 then some (.fbw ⟨(n - 0x100) / 4, by omega⟩)
  else if h : 0x800 ≤ n ∧ n < 0xD90 then some (.cromw ⟨(n - 0x800) / 4, by omega⟩)
  else none

/-- The access column of `20_memory.md` R51: read legal. -/
def WindowReg.readable : WindowReg → Bool
  | .cmd => false
  | .ctrl => false
  | _ => true

/-- The access column of `20_memory.md` R51: write legal. -/
def WindowReg.writable : WindowReg → Bool
  | .cmd => true
  | .ctrl => true
  | .f _ => true
  | _ => false

/-- The register a read reaches, if the read is legal (`20_memory.md` R52): four bytes, aligned, mapped, readable. -/
def legalRead (off : BitVec 12) (size : Nat) : Option WindowReg :=
  if size = 4 then (windowAt off).filter WindowReg.readable else none

/-- The register a write reaches and its word, if the write is legal (`20_memory.md` R52, R65). -/
def legalWrite (off : BitVec 12) (data : List Byte) : Option (WindowReg × Word) :=
  match (windowAt off).filter WindowReg.writable, wordOfBytes data with
  | some r, some w => some (r, w)
  | _, _ => none

/-- The constant register `CFG`: `WIDTH`, `R_F`, `R_P`, `BW_MAX` (`10_state.md` R32). -/
def cfgWord : Word := 0x0100D810

/-- What a read of data returns: the word, or `POISON` after a fatal error (`20_memory.md` R60, R61, R64). -/
def dataWord (s : State) (v : Nat) : Word := if s.fatal then Config.poison else BitVec.ofNat 32 v

/-- The word a legal read returns (`20_memory.md` R54 to R57, R60 to R62, R64). `CMD` and `CTRL` hold no state and
are never legally read (`10_state.md` R33, R34). -/
def readWord (r : WindowReg) (s : State) : Word :=
  match r with
  | .cmd => Config.poison
  | .status => if s.fatal then 1 else 0
  | .err => s.err.code.setWidth 32
  | .errInfo => s.errInfo
  | .cfg => cfgWord
  | .ctrl => Config.poison
  | .f i => dataWord s (s.canon i).val
  | .fbw i => dataWord s (s.reg i).bw
  | .cromw k => (cromAt s.rc k.val).getD Config.poison

/-- The information word of `BUS_ACCESS` (`20_memory.md` R63): the offset in bits 11:0, bit 31 = 1 for a write. -/
def accessInfo (isWrite : Bool) (off : BitVec 12) : Word :=
  (if isWrite then 0x80000000 else 0) ||| off.setWidth 32

/-- The bytes of an illegal read: `POISON` in every word, every byte 0xFF (`20_memory.md` R63, R64; log 9). -/
def poisonBytes (size : Nat) : List Byte := List.replicate size 0xFF

/-- A bus read (`20_memory.md` R54 to R57, R60 to R64). A legal one changes nothing (R68). -/
def busRead (off : BitVec 12) (size : Nat) (s : State) : State :=
  match legalRead off size with
  | some r => { s with reply := some (wordBytes (readWord r s)) }
  | none => { raise .busAccess (accessInfo false off) s with reply := some (poisonBytes size) }

/-- A write to `CMD` (`20_memory.md` R53, R64): ignored while FATAL = 1, else the command the word spells is executed,
or `ILLEGAL_CMD` raised (`30_encoding.md` R94). -/
def writeCmd (w : Word) (s : State) : Result :=
  if s.fatal then .next s
  else
    match decodeWord w with
    | .ok i => exec i s
    | .error _ => .next (raise .illegalCmd w s)

/-- A write to `CTRL` (`20_memory.md` R58): bit 0 is `SRST`, the others are ignored. Acts in every state. -/
def writeCtrl (w : Word) (s : State) : State := if w.toNat % 2 = 1 then resetEngine s else s

/-- A write to `F[i]` (`20_memory.md` R59, R64): `F[i] <- (w, 32)`, ignored while FATAL = 1. -/
def writeFieldReg (i : FReg) (w : Word) (s : State) : State :=
  if s.fatal then s else s.setReg i ⟨w.toNat, Config.bwLit⟩

/-- What a legal write does, by register (`20_memory.md` R53, R58, R59). The other registers are never legally
written (R51). -/
def writeWord (r : WindowReg) (w : Word) (s : State) : Result :=
  match r with
  | .cmd => writeCmd w s
  | .ctrl => .next (writeCtrl w s)
  | .f i => .next (writeFieldReg i w s)
  | .status => .next s
  | .err => .next s
  | .errInfo => .next s
  | .cfg => .next s
  | .fbw _ => .next s
  | .cromw _ => .next s

/-- A bus write (`20_memory.md` R53, R58, R59, R63, R64). The access is checked before the word is decoded
(`60_exceptions.md` R209). -/
def busWrite (off : BitVec 12) (data : List Byte) (s : State) : Result :=
  match legalWrite off data with
  | some (r, w) => writeWord r w s
  | none => .next (raise .busAccess (accessInfo true off) s)

/-- Serve one event. While the reset input is asserted the engine answers no bus access
(`70_reset_and_hazards.md` R240). -/
def serve (e : BusEvent) (s : State) : Result :=
  match e with
  | .resetPin asserted => .next (driveReset asserted s)
  | .read off size => .next (if s.resetLine then s else busRead off size s)
  | .write off data => if s.resetLine then .next s else busWrite off data s

/-- The oldest event is taken off the list; what the event before it returned is gone from the bus. -/
def takeEvent (rest : List BusEvent) (s : State) : State := { s with pending := rest, reply := none }

/-- Serve the oldest pending event (`20_memory.md` R69); with none pending the engine is idle and holds its registers
(`60_exceptions.md` R222, `70_reset_and_hazards.md` R245; log 4). -/
def serveNext (s : State) : Result :=
  match s.pending with
  | [] => .next s
  | e :: rest => serve e (takeEvent rest s)

/-- Place a command word as the next event, on an engine that is not dead and not held in reset (log 3). -/
def placeCommand (w : Word) (s : State) : State :=
  { s with
    pending := .write 0x000 (wordBytes w) :: s.pending, fatal := false, err := .noError, errInfo := 0,
    resetLine := false }

/-- The offset of a bus address in the window at `base` (`20_memory.md` R50); none where it is not this window's. -/
def windowOffset (base addr : Nat) : Option (BitVec 12) :=
  if base ≤ addr ∧ addr < base + Config.windowBytes then some (BitVec.ofNat 12 (addr - base)) else none

/-- An event reaches the engine after all those before it (`20_memory.md` R69). -/
def State.enqueue (s : State) (e : BusEvent) : State := { s with pending := s.pending ++ [e] }

/-- `MemRead(addr, n)` is issued on the bus (`00_scope.md` R13). Outside the window it is not this engine's (log 2). -/
def hostRead (addr n : Nat) (s : State) : State :=
  match windowOffset Config.base addr with
  | some off => s.enqueue (.read off n)
  | none => s

/-- `MemWrite(addr, n, v)` is issued on the bus, its bytes lowest address first (`00_scope.md` R13, `20_memory.md`
R65). Outside the window it is not this engine's (log 2). -/
def hostWrite (addr : Nat) (data : List Byte) (s : State) : State :=
  match windowOffset Config.base addr with
  | some off => s.enqueue (.write off data)
  | none => s

end Sys2Proof.Machine
end

