-- ==== Sys2Proof/Machine/Step.lean ====
section
/-! DEFINITION. One step: one event of the host interface (`00_scope.md` R14). -/

namespace Sys2Proof.Machine

/-- One step serves the oldest pending event (`00_scope.md` R14; log 4). -/
def step (s : State) : Host.Outcome State Fault Refusal := serveNext s

/-- `s` with the command word of the table's bits as the next bus write to `CMD`: the engine fetches nothing
(`10_state.md` R24), a program is the host's writes (log 3). -/
def State.withFetchWord (s : State) (nbits w : Nat) : State := placeCommand (BitVec.ofNat 32 (w % 2 ^ nbits)) s

end Sys2Proof.Machine
end

