-- ==== Sys2Proof/Safety.lean ====
section
/-! DEFINITION. What claims are stated in: the invariant of every reachable state, frames, which states look alike to
software, sequences of commands, and the matrices and schedules the spec writes out beside its algorithms. -/

namespace Sys2Proof.Machine

/-- The invariant of a field register: `val < 2^bw`, `31 <= bw <= BW_MAX` (`10_state.md` R21). -/
def FieldReg.Ok (r : FieldReg) : Prop := r.val < 2 ^ r.bw ∧ 31 ≤ r.bw ∧ r.bw ≤ 256

/-- A register is canonical: `val < P` and `bw = 31` (`10_state.md` R23). -/
def FieldReg.Canonical (r : FieldReg) : Prop := r.val < P ∧ r.bw = 31

/-- The commands that can raise `ARITH_OVERFLOW` (`60_exceptions.md` R203). -/
def IsProducer : Instr → Prop
  | .fadd _ _ _ => True
  | .fmulc _ _ _ => True
  | .fmul _ _ _ => True
  | _ => False

/-- The field-unit commands: they work on the pair `(val, bw)` (`00_scope.md` R16). -/
def IsFieldUnit : Instr → Prop
  | .fldc _ _ => True
  | .fadd _ _ _ => True
  | .fmulc _ _ _ => True
  | .fmul _ _ _ => True
  | .fred _ _ => True
  | _ => False

/-- The composite commands: they read canonical values and write canonical results (`00_scope.md` R16). -/
def IsComposite (i : Instr) : Prop := ¬ IsFieldUnit i

/-- The width check of a command fails (`60_exceptions.md` R203, R211). -/
def Overflows (i : Instr) (s : State) : Prop :=
  match i with
  | .fadd _ ra rb => 256 < max (s.reg ra).bw (s.reg rb).bw + 1
  | .fmulc _ ra c => ∃ w, cromAt s.rc c.val = some w ∧ 256 < (s.reg ra).bw + bitlen w.toNat
  | .fmul _ ra rb => 256 < (s.reg ra).bw + (s.reg rb).bw
  | _ => False

/-- What ERRINFO holds, by cause (`10_state.md` R31, `60_exceptions.md` R201). -/
def State.ErrInfoFits (s : State) : Prop :=
  match s.err with
  | .noError => s.errInfo = 0
  | .cfg => firstBad s.rc = some s.errInfo.toNat
  | .arithOverflow => ∃ i, decodeWord s.errInfo = .ok i ∧ IsProducer i
  | .illegalCmd => ∃ reason, decodeWord s.errInfo = .error reason
  | .busAccess => ∃ off : BitVec 12, s.errInfo.toNat = off.toNat ∨ s.errInfo.toNat = off.toNat + 2 ^ 31

/-- The invariant of every reachable state. -/
structure State.Inv (s : State) : Prop where
  /-- every field register is within its tracked width (`10_state.md` R21) -/
  regsOk : ∀ i : FReg, (s.reg i).Ok
  /-- ERR is not 0 exactly when FATAL = 1 (`10_state.md` R28) -/
  errIffFatal : s.fatal = true ↔ s.err ≠ .noError
  /-- ERRINFO is the information word of that cause, 0 with no error (`10_state.md` R28, R31) -/
  errInfoFits : s.ErrInfoFits
  /-- the sequencer is idle whenever the host can observe anything (`10_state.md` R24) -/
  sequencerIdle : s.phase = .idle ∧ s.rnd = 0
  /-- a configuration error stands exactly when the table is malformed (`60_exceptions.md` R202) -/
  cfgIffMalformed : s.err = .cfg ↔ ¬ s.rc.WellFormed

/-- The engine is dead of a malformed table: CFG stands, ERRINFO is the least bad index, and every field register has its
reset value (`60_exceptions.md` R202, `70_reset_and_hazards.md` R243). -/
structure State.DeadOfTable (s : State) : Prop where
  malformed : ¬ s.rc.WellFormed
  fatal : s.fatal = true
  err : s.err = .cfg
  errInfo : firstBad s.rc = some s.errInfo.toNat
  regs : ∀ i : FReg, s.reg i = ⟨0, 31⟩

/-- Nothing but the field registers differs. -/
structure State.SameBeyondRegs (s t : State) : Prop where
  fatal : t.fatal = s.fatal
  err : t.err = s.err
  errInfo : t.errInfo = s.errInfo
  phase : t.phase = s.phase
  rnd : t.rnd = s.rnd
  rc : t.rc = s.rc
  resetLine : t.resetLine = s.resetLine
  pending : t.pending = s.pending
  reply : t.reply = s.reply

/-- The frame of a command: nothing but the field registers in `written` differs. -/
structure State.OnlyRegs (written : FReg → Prop) (s t : State) : Prop where
  others : ∀ j : FReg, ¬ written j → t.reg j = s.reg j
  beyond : s.SameBeyondRegs t

/-- `S[0..15]` (`10_state.md` R22). -/
def IsStateReg (j : FReg) : Prop := j.val < 16

/-- `s` after `raise <Error>(info)` with FATAL = 0: these three fields and nothing else (`60_exceptions.md` R206). -/
def State.raised (s : State) (cause : ErrCode) (info : Word) : State :=
  { s with fatal := true, err := cause, errInfo := info }

/-- Commands executed one after the other. -/
def execSeq : List Instr → State → Result
  | [], s => .next s
  | i :: rest, s =>
    match exec i s with
    | .next t => execSeq rest t
    | .fault r => .fault r
    | .refused r => .refused r

/-- Two events differ at most in the word written to a field register (`40_field_unit.md` R128). -/
def BusEvent.Alike : BusEvent → BusEvent → Prop
  | .write off d, .write off' d' =>
    off = off' ∧ d.length = d'.length ∧ (d = d' ∨ ∃ i, windowAt off = some (.f i))
  | e, e' => e = e'

/-- Two states agree on everything but the values in the field registers and what reading them returned
(`40_field_unit.md` R128, `00_scope.md` R18). -/
structure State.SameWidths (s t : State) : Prop where
  bw : ∀ i : FReg, (t.reg i).bw = (s.reg i).bw
  fatal : t.fatal = s.fatal
  err : t.err = s.err
  errInfo : t.errInfo = s.errInfo
  phase : t.phase = s.phase
  rnd : t.rnd = s.rnd
  rc : t.rc = s.rc
  resetLine : t.resetLine = s.resetLine
  pending : List.Forall₂ BusEvent.Alike s.pending t.pending
  reply : t.reply.map List.length = s.reply.map List.length

/-- Two states agree on all software can observe: the element each register denotes, its tracked width, and
everything beyond the field registers (`10_state.md` R36). -/
structure State.SameMeaning (s t : State) : Prop where
  canon : ∀ i : FReg, t.canon i = s.canon i
  bw : ∀ i : FReg, (t.reg i).bw = (s.reg i).bw
  beyond : s.SameBeyondRegs t

/-- The 4 x 4 matrix of `MAT4`, the circulant with first row (2, 3, 1, 1) (`42_linear_layers.md` R156). -/
def circEntry (i j : Fin 4) : Nat :=
  (([[2, 3, 1, 1], [1, 2, 3, 1], [1, 1, 2, 3], [3, 1, 1, 2]] : List (List Nat)).getD i.val []).getD j.val 0

/-- `M_E[i][j]`: twice the 4 x 4 entry within a block, once across blocks (`42_linear_layers.md` R159). -/
def extEntry (i j : Fin 16) : Nat := (if i.val / 4 = j.val / 4 then 2 else 1) * circEntry (laneOf i) (laneOf j)

/-- The diagonal of `M_I` as `42_linear_layers.md` R165 prints it. -/
def intDiagonal : List Nat :=
  [1069547521, 1887436800, 817889279, 692060158, 440401916, 1950351353, 943718385, 943718370, 943718340, 943718280,
    943718160, 943717920, 943717440, 943716480, 943714560, 943703040]

/-- `M_I[i][j]` (`42_linear_layers.md` R165). -/
def intEntry (i j : Fin 16) : Nat := if i = j then intDiagonal.getD i.val 0 else 943718400

/-- The rows of the first external half, the internal rounds and the second external half
(`43_permutation_engine.md` R175). -/
def firstHalfRows : List RowField := [0, 1, 2, 3]

/-- See `firstHalfRows`. -/
def internalRows : List RowField := [4, 5, 6, 7, 8, 9, 10, 11, 12, 13, 14, 15, 16]

/-- See `firstHalfRows`. -/
def secondHalfRows : List RowField := [17, 18, 19, 20]

/-- An external round as three commands (`43_permutation_engine.md` R181, R189). -/
def externalSteps (r : RowField) : List Instr := [.arcf r, .sboxf, .mext]

/-- An internal round as three commands (`43_permutation_engine.md` R182, R189). -/
def internalSteps (r : RowField) : List Instr := [.arcp r, .sboxp, .mint]

/-- The 22 commands of decomposition (b) (`43_permutation_engine.md` R189). -/
def roundCommands : List Instr :=
  Instr.mext :: (firstHalfRows.map Instr.rndf ++ internalRows.map Instr.rndp ++ secondHalfRows.map Instr.rndf)

/-- The 64 commands of decomposition (c) (`43_permutation_engine.md` R189). -/
def stepCommands : List Instr :=
  Instr.mext :: (firstHalfRows.flatMap externalSteps ++ internalRows.flatMap internalSteps
    ++ secondHalfRows.flatMap externalSteps)

/-- The sequencer's phases and rounds from the start of `PERM` to its end (`43_permutation_engine.md` R187). -/
def schedule : List (Phase × Fin 21) :=
  [(.init, 0), (.ext1, 0), (.ext1, 1), (.ext1, 2), (.ext1, 3), (.int, 4), (.int, 5), (.int, 6), (.int, 7), (.int, 8),
    (.int, 9), (.int, 10), (.int, 11), (.int, 12), (.int, 13), (.int, 14), (.int, 15), (.int, 16), (.ext2, 17),
    (.ext2, 18), (.ext2, 19), (.ext2, 20), (.idle, 0)]

/-- `PERM` uses this entry of `RC`: all of an external round's row, entry 0 of an internal round's
(`43_permutation_engine.md` R175). -/
def UsedByPerm (r : Fin 21) (i : Fin 16) : Prop := r.val < 4 ∨ 16 < r.val ∨ i = 0

/-- The bus writes that load sixteen words into `S[0..15]` (`70_reset_and_hazards.md` R247). -/
def loadEvents (x : Fin 16 → Word) : List BusEvent :=
  (List.finRange 16).map fun i => .write (BitVec.ofNat 12 (0x080 + 4 * i.val)) (wordBytes (x i))

end Sys2Proof.Machine
end

