-- ==== Sys2Proof/Certificates/Slice0/Obligations.lean ====
section
/-! DEFINITION. The statements for the provers. Each docstring names the rule of spec/ it formalises. -/

open Sys2Proof Sys2Proof.Machine

/-! ### Encoding -/

/-- Decoding and encoding agree in both directions, and decoding is injective (`30_encoding.md` R96). -/
def Obligations.DecodeEncodeRoundTrip : Prop :=
  (∀ i : Instr, i.wf = true → decodeWord (encode i) = .ok i) ∧
  (∀ (w : Word) (i : Instr), decodeWord w = .ok i → i.wf = true ∧ encode i = w) ∧
  (∀ (w w' : Word) (i : Instr), decodeWord w = .ok i → decodeWord w' = .ok i → w = w')

/-- A word spells a command exactly when a row of the opcode map says so: `w & mask = match` and legal operands
(`30_encoding.md` R89, R91, R95). -/
def Obligations.DecodeFollowsOpcodeMap : Prop :=
  ∀ (w : Word) (m : String),
    (∃ i, decodeWord w = .ok i ∧ i.mnemonic = m) ↔ ∃ row ∈ opcodeMap, row.mnemonic = m ∧ row.spells w

/-- The encoding formulas with their shifts and ors, per format (`30_encoding.md` R90). -/
def Obligations.EncodePlacesTheFields : Prop :=
  (∀ (rd : FReg) (c : CIdx), encode (.fldc rd c) =
    (0x01#32 <<< 26) ||| (BitVec.ofNat 32 rd.val <<< 21) ||| BitVec.ofNat 32 c.val) ∧
  (∀ rd ra rb : FReg, encode (.fadd rd ra rb) =
    (0x02#32 <<< 26) ||| (BitVec.ofNat 32 rd.val <<< 21) ||| (BitVec.ofNat 32 ra.val <<< 16)
      ||| (BitVec.ofNat 32 rb.val <<< 11)) ∧
  (∀ (rd ra : FReg) (c : CIdx), encode (.fmulc rd ra c) =
    (0x03#32 <<< 26) ||| (BitVec.ofNat 32 rd.val <<< 21) ||| (BitVec.ofNat 32 ra.val <<< 16)
      ||| BitVec.ofNat 32 c.val) ∧
  (∀ rd ra rb : FReg, encode (.fmul rd ra rb) =
    (0x04#32 <<< 26) ||| (BitVec.ofNat 32 rd.val <<< 21) ||| (BitVec.ofNat 32 ra.val <<< 16)
      ||| (BitVec.ofNat 32 rb.val <<< 11)) ∧
  (∀ rd ra : FReg, encode (.fred rd ra) =
    (0x05#32 <<< 26) ||| (BitVec.ofNat 32 rd.val <<< 21) ||| (BitVec.ofNat 32 ra.val <<< 16)) ∧
  (∀ rd ra : FReg, encode (.sbox rd ra) =
    (0x08#32 <<< 26) ||| (BitVec.ofNat 32 rd.val <<< 21) ||| (BitVec.ofNat 32 ra.val <<< 16)) ∧
  encode .sboxf = 0x09#32 <<< 26 ∧ encode .sboxp = 0x0A#32 <<< 26 ∧
  (∀ r : RowField, encode (.arcf r) = (0x0C#32 <<< 26) ||| BitVec.ofNat 32 r.val) ∧
  (∀ r : RowField, encode (.arcp r) = (0x0D#32 <<< 26) ||| BitVec.ofNat 32 r.val) ∧
  encode .mext = 0x10#32 <<< 26 ∧ encode .mint = 0x11#32 <<< 26 ∧
  (∀ r : RowField, encode (.rndf r) = (0x14#32 <<< 26) ||| BitVec.ofNat 32 r.val) ∧
  (∀ r : RowField, encode (.rndp r) = (0x15#32 <<< 26) ||| BitVec.ofNat 32 r.val) ∧
  encode .perm = 0x18#32 <<< 26

/-- Words of `95_test_vectors.md` section 3, one per family: they decode to the commands they stand for. -/
def Obligations.SampleWordsDecode : Prop :=
  decodeWord 0x06600160 = .ok (.fldc 19 352) ∧ decodeWord 0x0A508800 = .ok (.fadd 18 16 17) ∧
  decodeWord 0x0E4F015F = .ok (.fmulc 18 15 351) ∧ decodeWord 0x22900000 = .ok (.sbox 20 16) ∧
  decodeWord 0x44000000 = .ok .mint ∧ decodeWord 0x34000010 = .ok (.arcp 16) ∧
  decodeWord 0x60000000 = .ok .perm ∧ decodeWord 0x60000001 = .error .mustBeZeroBitSet ∧
  decodeWord 0x50000015 = .error .rowOutOfRange ∧ decodeWord 0x0E300164 = .error .cidxOutOfRange ∧
  decodeWord 0x00000000 = .error .unassignedOpcode

/-- A word that spells no command, written to CMD, raises ILLEGAL_CMD with the word as information and changes no
other state (`30_encoding.md` R94). -/
def Obligations.IllegalWordRaisesIllegalCmd : Prop :=
  (∀ (s : State) (w : Word) (rest : List BusEvent) (reason : Reject),
    s.pending = .write 0x000 (wordBytes w) :: rest → s.resetLine = false → s.fatal = false →
    decodeWord w = .error reason → step s = .next ((takeEvent rest s).raised .illegalCmd w)) ∧
  ErrCode.code .illegalCmd = 3 ∧
  (∃ reason, decodeWord 0x00000000 = .error reason) ∧ (∃ reason, decodeWord 0xFFFFFFFF = .error reason)

/-- A CMD write of a word that decodes to `i` runs `exec i`, after the event is taken off the host's list
(`20_memory.md` R53); while FATAL = 1 it runs nothing. -/
def Obligations.StepRunsDecodedCommand : Prop :=
  ∀ (s : State) (w : Word) (rest : List BusEvent) (i : Instr),
    s.pending = .write 0x000 (wordBytes w) :: rest → s.resetLine = false → decodeWord w = .ok i →
    (s.fatal = false → step s = exec i (takeEvent rest s)) ∧ (s.fatal = true → step s = .next (takeEvent rest s))

/-! ### Constants and widths -/

/-- The layout of the constant ROM (`10_state.md` R27). -/
def Obligations.CromHoldsTableAndConstants : Prop :=
  ∀ rc : RcTable,
    (∀ (r : Fin 21) (i : Fin 16), cromAt rc (16 * r.val + i.val) = some rc[r][i]) ∧
    cromAt rc 336 = some 2013265919 ∧
    (∀ i, 1 ≤ i → i ≤ 14 → cromAt rc (336 + i) = some (BitVec.ofNat 32 (2 ^ (i - 1)))) ∧
    cromAt rc 351 = some 32768 ∧ cromAt rc 352 = some 943718400 ∧ cromAt rc 353 = some 0 ∧
    cromAt rc 354 = some 1 ∧ cromAt rc 355 = some 2 ∧
    (∀ k, 356 ≤ k → cromAt rc k = none) ∧
    (∀ k w, 336 ≤ k → cromAt rc k = some w → w.toNat < P) ∧
    ((∀ k w, k < 336 → cromAt rc k = some w → w.toNat < P) ↔ rc.WellFormed)

/-- `bitlen(c)` is the least `n` with `c < 2^n` (`00_scope.md` R10). -/
def Obligations.BitlenIsLeastBound : Prop :=
  ∀ c : Nat, c < 2 ^ bitlen c ∧ ∀ n, c < 2 ^ n → bitlen c ≤ n

/-! ### Field unit -/

/-- `FLDC` (`40_field_unit.md` R122): for every legal `cidx`, `F[rd] <- (CROM[cidx], 31)`, nothing else, no error. -/
def Obligations.FldcLoadsConstant : Prop :=
  ∀ (rd : FReg) (c : CIdx) (s : State), c.val ≤ 355 →
    ∃ w t, cromAt s.rc c.val = some w ∧ exec (.fldc rd c) s = .next t ∧ t.reg rd = ⟨w.toNat, 31⟩ ∧
      s.OnlyRegs (· = rd) t

/-- `FADD` (`40_field_unit.md` R123): the exact sum at width `max + 1`, or `ARITH_OVERFLOW` and no write. -/
def Obligations.FaddWritesExactSum : Prop :=
  ∀ (rd ra rb : FReg) (s : State),
    (max (s.reg ra).bw (s.reg rb).bw + 1 ≤ 256 →
      ∃ t, exec (.fadd rd ra rb) s = .next t ∧
        t.reg rd = ⟨(s.reg ra).val + (s.reg rb).val, max (s.reg ra).bw (s.reg rb).bw + 1⟩ ∧ s.OnlyRegs (· = rd) t) ∧
    (256 < max (s.reg ra).bw (s.reg rb).bw + 1 → s.fatal = false →
      exec (.fadd rd ra rb) s = .next (s.raised .arithOverflow (encode (.fadd rd ra rb))))

/-- `FMULC` (`40_field_unit.md` R124): the exact product with `CROM[cidx]` at width `bw + bitlen(c)`, or
`ARITH_OVERFLOW` and no write. -/
def Obligations.FmulcWritesExactProduct : Prop :=
  ∀ (rd ra : FReg) (c : CIdx) (s : State), c.val ≤ 355 →
    ∃ w, cromAt s.rc c.val = some w ∧
      ((s.reg ra).bw + bitlen w.toNat ≤ 256 →
        ∃ t, exec (.fmulc rd ra c) s = .next t ∧
          t.reg rd = ⟨(s.reg ra).val * w.toNat, (s.reg ra).bw + bitlen w.toNat⟩ ∧ s.OnlyRegs (· = rd) t) ∧
      (256 < (s.reg ra).bw + bitlen w.toNat → s.fatal = false →
        exec (.fmulc rd ra c) s = .next (s.raised .arithOverflow (encode (.fmulc rd ra c))))

/-- `FMUL` (`40_field_unit.md` R125): the exact product at width `bw + bw`, or `ARITH_OVERFLOW` and no write. -/
def Obligations.FmulWritesExactProduct : Prop :=
  ∀ (rd ra rb : FReg) (s : State),
    ((s.reg ra).bw + (s.reg rb).bw ≤ 256 →
      ∃ t, exec (.fmul rd ra rb) s = .next t ∧
        t.reg rd = ⟨(s.reg ra).val * (s.reg rb).val, (s.reg ra).bw + (s.reg rb).bw⟩ ∧ s.OnlyRegs (· = rd) t) ∧
    (256 < (s.reg ra).bw + (s.reg rb).bw → s.fatal = false →
      exec (.fmul rd ra rb) s = .next (s.raised .arithOverflow (encode (.fmul rd ra rb))))

/-- `FRED` (`40_field_unit.md` R126): `F[rd] <- (F[ra].val mod P, 31)`, nothing else, no error; done twice in place it
is done once, and a canonical operand is copied unchanged. -/
def Obligations.FredWritesCanonicalValue : Prop :=
  ∀ (rd ra : FReg) (s : State),
    ∃ t, exec (.fred rd ra) s = .next t ∧ t.reg rd = ⟨(s.reg ra).val % 2013265921, 31⟩ ∧ s.OnlyRegs (· = rd) t ∧
      ((s.reg ra).Canonical → t.reg rd = s.reg ra) ∧ execSeq [.fred rd ra, .fred rd rd] s = .next t

/-- Every field-unit command that completes denotes its `Fp` operation (`40_field_unit.md` R127), the other registers
unchanged. -/
def Obligations.FieldUnitDenotesFieldOperation : Prop :=
  ∀ (s t : State), s.fatal = false → t.fatal = false →
    (∀ rd c w, cromAt s.rc c.val = some w → exec (.fldc rd c) s = .next t →
      (t.canon rd).val = w.toNat % P ∧ s.OnlyRegs (· = rd) t) ∧
    (∀ rd ra rb, exec (.fadd rd ra rb) s = .next t →
      t.canon rd = s.canon ra + s.canon rb ∧ s.OnlyRegs (· = rd) t) ∧
    (∀ rd ra c w, cromAt s.rc c.val = some w → exec (.fmulc rd ra c) s = .next t →
      t.canon rd = s.canon ra * toFp w.toNat ∧ s.OnlyRegs (· = rd) t) ∧
    (∀ rd ra rb, exec (.fmul rd ra rb) s = .next t →
      t.canon rd = s.canon ra * s.canon rb ∧ s.OnlyRegs (· = rd) t) ∧
    (∀ rd ra, exec (.fred rd ra) s = .next t → t.canon rd = s.canon ra ∧ s.OnlyRegs (· = rd) t)

/-- Whether anything raises, and every tracked width, is the same for all written values: two runs that differ only in
values stay so (`40_field_unit.md` R128, `00_scope.md` R18). -/
def Obligations.TrackedWidthsIgnoreValues : Prop :=
  ∀ (n : Nat) (s t s' t' : State), s.SameWidths s' → Sys2Proof.core.run n s = .next t →
    Sys2Proof.core.run n s' = .next t' → t.SameWidths t'

/-- The integer in a register is never observable beyond `val mod P`: two runs that agree on the element and the width
of every register stay so, and every reply and error is the same (`10_state.md` R36). -/
def Obligations.ValueOnlySeenModuloP : Prop :=
  ∀ (n : Nat) (s t s' t' : State), s.SameMeaning s' → Sys2Proof.core.run n s = .next t →
    Sys2Proof.core.run n s' = .next t' → t.SameMeaning t'

/-- Inserting `FRED x, x` into a sequence of field-unit commands that raises no error changes no element denoted later,
raises no error, and can only lower widths (`40_field_unit.md` R121). -/
def Obligations.FredInsertionKeepsMeaning : Prop :=
  ∀ (before after : List Instr) (x : FReg) (s t : State), s.Inv → s.fatal = false →
    (∀ i ∈ before ++ after, IsFieldUnit i ∧ i.wf = true) →
    execSeq (before ++ after) s = .next t → t.fatal = false →
    ∃ u, execSeq (before ++ Instr.fred x x :: after) s = .next u ∧ u.fatal = false ∧
      ∀ i : FReg, u.canon i = t.canon i ∧ (u.reg i).bw ≤ (t.reg i).bw

/-! ### S-box -/

/-- `SBOX` (`41_sbox.md` R143): `x <- F[ra].val mod P`, `F[rd] <- (x^7 mod P, 31)`, for any representation. -/
def Obligations.SboxWritesSeventhPower : Prop :=
  ∀ (rd ra : FReg) (s : State),
    ∃ t, exec (.sbox rd ra) s = .next t ∧ t.reg rd = ⟨((s.reg ra).val % P) ^ 7 % P, 31⟩ ∧ s.OnlyRegs (· = rd) t

/-- `SBOXF` (`41_sbox.md` R144): the S-box on every element of the state. -/
def Obligations.SboxfMapsEveryElement : Prop :=
  ∀ s : State, ∃ t, exec .sboxf s = .next t ∧
    (∀ i : Fin 16, t.reg (sReg i) = ⟨((s.reg (sReg i)).val % P) ^ 7 % P, 31⟩) ∧ s.OnlyRegs IsStateReg t

/-- `SBOXP` (`41_sbox.md` R145): element 0 only; the same effect as `SBOX S0, S0`. -/
def Obligations.SboxpMapsElementZero : Prop :=
  ∀ s : State, ∃ t, exec .sboxp s = .next t ∧ t.reg 0 = ⟨((s.reg 0).val % P) ^ 7 % P, 31⟩ ∧ s.OnlyRegs (· = 0) t ∧
    exec (.sbox 0 0) s = .next t

/-- The S-box by field-unit commands, step by step, gives what `SBOX T4, T0` gives, at widths 62, 124, 186, 217 on the
way, when the first addition does not overflow (`41_sbox.md` R147). -/
def Obligations.SboxEqualsFieldUnitChain : Prop :=
  ∀ s : State, s.fatal = false → (s.reg (tReg 0)).bw < 256 →
    ∃ t u v, execSeq [.fldc (tReg 1) 353, .fadd (tReg 0) (tReg 0) (tReg 1), .fred (tReg 0) (tReg 0),
        .fmul (tReg 1) (tReg 0) (tReg 0), .fmul (tReg 2) (tReg 1) (tReg 1), .fmul (tReg 3) (tReg 2) (tReg 1),
        .fmul (tReg 4) (tReg 3) (tReg 0)] s = .next t ∧
      (t.reg (tReg 1)).bw = 62 ∧ (t.reg (tReg 2)).bw = 124 ∧ (t.reg (tReg 3)).bw = 186 ∧ (t.reg (tReg 4)).bw = 217 ∧
      exec (.fred (tReg 4) (tReg 4)) t = .next u ∧ exec (.sbox (tReg 4) (tReg 0)) s = .next v ∧
      u.fatal = false ∧ v.fatal = false ∧ u.reg (tReg 4) = v.reg (tReg 4)

/-- `SBOX7` permutes `Fp` (`41_sbox.md` R146). -/
def Obligations.Sbox7IsBijective : Prop := Function.Bijective sbox7

/-! ### Linear layers -/

/-- `MEXT` (`42_linear_layers.md` R161): `S <- EXT(Sv)`, all outputs canonical, `T` untouched, no error. -/
def Obligations.MextAppliesExternalLayer : Prop :=
  ∀ s : State, ∃ t, exec .mext s = .next t ∧
    (∀ i : Fin 16, t.reg (sReg i) = ⟨(ext s.stateVec i).val, 31⟩) ∧ s.OnlyRegs IsStateReg t

/-- `EXT` is the matrix `circ(2*M4, M4, M4, M4)` (`42_linear_layers.md` R156, R157, R159). -/
def Obligations.ExternalLayerIsBlockCirculant : Prop :=
  ∀ (s : StateVec) (i : Fin 16), (ext s i).val = (∑ j : Fin 16, extEntry i j * (s j).val) % P

/-- `EXT` is linear with no constant term (`42_linear_layers.md` R160). -/
def Obligations.ExternalLayerIsLinear : Prop :=
  (∀ a b : StateVec, ∀ i : Fin 16, ext (fun j => a j + b j) i = ext a i + ext b i) ∧
  (∀ i : Fin 16, ext (fun _ => 0) i = 0)

/-- `MINT` (`42_linear_layers.md` R167): `S <- INT(Sv)`, all outputs canonical, `T` untouched, no error. -/
def Obligations.MintAppliesInternalLayer : Prop :=
  ∀ s : State, ∃ t, exec .mint s = .next t ∧
    (∀ i : Fin 16, t.reg (sReg i) = ⟨(int s.stateVec i).val, 31⟩) ∧ s.OnlyRegs IsStateReg t

/-- `INT` is the matrix with 943718400 off the diagonal and the printed diagonal (`42_linear_layers.md` R162, R165). -/
def Obligations.InternalLayerIsPrintedMatrix : Prop :=
  ∀ (s : StateVec) (i : Fin 16), (int s i).val = (∑ j : Fin 16, intEntry i j * (s j).val) % P

/-- `INT` is linear with no constant term, and its output at any index depends on every input element
(`42_linear_layers.md` R166). -/
def Obligations.InternalLayerIsLinearAndDiffuses : Prop :=
  (∀ a b : StateVec, ∀ i : Fin 16, int (fun j => a j + b j) i = int a i + int b i) ∧
  (∀ i : Fin 16, int (fun _ => 0) i = 0) ∧
  (∀ (a b : StateVec) (k : Fin 16), a k ≠ b k → (∀ j, j ≠ k → a j = b j) → ∀ i : Fin 16, int a i ≠ int b i)

/-- Both linear layers are invertible (`42_linear_layers.md` R159, R165). -/
def Obligations.LinearLayersAreBijective : Prop := Function.Bijective ext ∧ Function.Bijective int

/-! ### Rounds and the permutation -/

/-- `ARCF r` (`43_permutation_engine.md` R177): `S[i] <- ((canon(i) + RC[r][i]) mod P, 31)` for all 16 `i`, for every
row 0 to 20. -/
def Obligations.ArcfAddsRow : Prop :=
  ∀ (row : Fin 21) (r : RowField) (s : State), r.val = row.val →
    ∃ t, exec (.arcf r) s = .next t ∧
      (∀ i : Fin 16, t.reg (sReg i) = ⟨((s.canon (sReg i)).val + (s.rc[row][i]).toNat) % P, 31⟩) ∧
      s.OnlyRegs IsStateReg t

/-- `ARCP r` (`43_permutation_engine.md` R178): element 0 only, for every row 0 to 20. -/
def Obligations.ArcpAddsToElementZero : Prop :=
  ∀ (row : Fin 21) (r : RowField) (s : State), r.val = row.val →
    ∃ t, exec (.arcp r) s = .next t ∧ t.reg 0 = ⟨((s.canon 0).val + (s.rc[row][(0 : Fin 16)]).toNat) % P, 31⟩ ∧
      s.OnlyRegs (· = 0) t

/-- `RNDF r` (`43_permutation_engine.md` R181): `S <- ROUND_F(Sv, r)`, the same effect as `ARCF r; SBOXF; MEXT`. -/
def Obligations.RndfIsArcfSboxfMext : Prop :=
  ∀ (row : Fin 21) (r : RowField) (s : State), r.val = row.val →
    ∃ t, exec (.rndf r) s = .next t ∧
      (∀ i : Fin 16, t.reg (sReg i) =
        ⟨(ext (fun k => sbox7 (s.canon (sReg k) + toFp (s.rc[row][k]).toNat)) i).val, 31⟩) ∧
      s.OnlyRegs IsStateReg t ∧ execSeq [.arcf r, .sboxf, .mext] s = .next t

/-- `RNDP r` (`43_permutation_engine.md` R182): `S <- ROUND_P(Sv, r)`, the same effect as `ARCP r; SBOXP; MINT`. -/
def Obligations.RndpIsArcpSboxpMint : Prop :=
  ∀ (row : Fin 21) (r : RowField) (s : State), r.val = row.val →
    ∃ t, exec (.rndp r) s = .next t ∧
      (∀ i : Fin 16, t.reg (sReg i) =
        ⟨(int (fun k => if k = 0 then sbox7 (s.canon 0 + toFp (s.rc[row][(0 : Fin 16)]).toNat) else s.canon (sReg k))
          i).val, 31⟩) ∧
      s.OnlyRegs IsStateReg t ∧ execSeq [.arcp r, .sboxp, .mint] s = .next t

/-- `PERM` (`43_permutation_engine.md` R185): `S <- PERMUTE(Sv)`, all outputs canonical, `T` untouched, no error. With
an all-zero table the zero state stays zero. The sequencer is idle again (R187, `10_state.md` R24), so from the idle
sequencer of every reachable state nothing else changes; that a start outside IDLE ends so too is the model's reading
(log 16). -/
def Obligations.PermAppliesPermute : Prop :=
  ∀ s : State, ∃ t, exec .perm s = .next t ∧
    (∀ i : Fin 16, t.reg (sReg i) = ⟨(permute s.rc s.stateVec i).val, 31⟩) ∧
    t.phase = .idle ∧ t.rnd = 0 ∧
    { s with phase := .idle, rnd := 0 }.OnlyRegs IsStateReg t ∧
    ((∀ (r : Fin 21) (k : Fin 16), s.rc[r][k] = 0) → s.stateVec = (fun _ => 0) → ∀ i : Fin 16, t.reg (sReg i) = ⟨0, 31⟩)

/-- The sequencer walks INIT, four EXT1, thirteen INT and four EXT2 rounds and is idle again, whatever the registers
hold (`43_permutation_engine.md` R187, R188). -/
def Obligations.SequencerWalksTheSchedule : Prop :=
  ∀ s : State, (List.range 23).map (fun k => ((seqRun k (seqStart s)).phase, (seqRun k (seqStart s)).rnd)) = schedule

/-- `PERM`, its 22 round-level commands and its 64 step-level commands leave the same state and leave `T` untouched
(`43_permutation_engine.md` R189). -/
def Obligations.PermEqualsRoundAndStepCommands : Prop :=
  ∀ s : State, ∃ a b c, exec .perm s = .next a ∧ execSeq roundCommands s = .next b ∧ execSeq stepCommands s = .next c ∧
    (∀ i : Fin 16, a.reg (sReg i) = b.reg (sReg i) ∧ a.reg (sReg i) = c.reg (sReg i)) ∧
    (∀ j : Fin 16, a.reg (tReg j) = s.reg (tReg j) ∧ b.reg (tReg j) = s.reg (tReg j) ∧ c.reg (tReg j) = s.reg (tReg j))

/-- Two tables that agree on the entries the schedule uses give the same permutation: entries 1 to 15 of an internal
round's row are never used (`43_permutation_engine.md` R175). -/
def Obligations.UnusedTableEntriesDoNotMatter : Prop :=
  ∀ rc rc' : RcTable, (∀ (r : Fin 21) (i : Fin 16), UsedByPerm r i → rc[r][i] = rc'[r][i]) →
    permute rc = permute rc'

/-- `PERMUTE` is a bijection of `Fp^16` for every table (`43_permutation_engine.md` R191). -/
def Obligations.PermuteIsBijective : Prop := ∀ rc : RcTable, Function.Bijective (permute rc)

/-! ### All commands -/

/-- A composite command leaves every register it writes canonical, and raises nothing, whatever its inputs
(`10_state.md` R23). -/
def Obligations.CompositeWritesAreCanonical : Prop :=
  ∀ (i : Instr) (s : State), i.wf = true → IsComposite i →
    ∃ t, exec i s = .next t ∧ t.fatal = s.fatal ∧ ∀ j : FReg, t.reg j = s.reg j ∨ (t.reg j).Canonical

/-- A command raises `ARITH_OVERFLOW`, code 2 (`60_exceptions.md` R200), exactly when its width check fails, which only
`FADD`, `FMULC`, `FMUL` make; then it writes nothing (R203). -/
def Obligations.OnlyProducersOverflow : Prop :=
  ErrCode.code .arithOverflow = 2 ∧
  ∀ (i : Instr) (s : State), i.wf = true → s.fatal = false →
    ∃ t, exec i s = .next t ∧ (t.fatal = true ↔ Overflows i s) ∧
      (Overflows i s → IsProducer i ∧ t = s.raised .arithOverflow (encode i))

/-! ### The step, errors and reset -/

/-- Every event in every state has a next state: no refusal and no stuck state (`60_exceptions.md` R223; log 5). -/
def Obligations.EveryStepHasNextState : Prop := ∀ s : State, ∃ t, step s = .next t

/-- The invariant of reachable states is kept by every step (`10_state.md` R21, R28, R31, R24). For the steps that
assert the reset input or serve an event while it is asserted this is the model's choice (log 10). -/
def Obligations.StepKeepsInvariant : Prop := ∀ s t : State, s.Inv → step s = .next t → t.Inv

/-- The reset state meets the invariant, for every table (`10_state.md` R21: "They hold after reset"). -/
def Obligations.ResetHasInvariant : Prop := (∀ rc : RcTable, (State.resetWith rc).Inv) ∧ State.reset.Inv

/-- What reset leaves (`10_state.md` R37). The host interface's fields are the model's own (log 4, log 9, log 10) and
are not named here. -/
def Obligations.ResetStateValues : Prop :=
  ∀ rc : RcTable,
    (∀ i : FReg, (State.resetWith rc).reg i = ⟨0, 31⟩) ∧ (State.resetWith rc).phase = .idle ∧
    (State.resetWith rc).rnd = 0 ∧ (State.resetWith rc).rc = rc ∧
    (rc.WellFormed → (State.resetWith rc).fatal = false ∧ (State.resetWith rc).err.code = 0 ∧
      (State.resetWith rc).errInfo = 0) ∧
    (¬ rc.WellFormed → (State.resetWith rc).fatal = true ∧ (State.resetWith rc).err.code = 1 ∧
      ∃ w, cromAt rc (State.resetWith rc).errInfo.toNat = some w ∧ P ≤ w.toNat ∧
        ∀ j v, j < (State.resetWith rc).errInfo.toNat → cromAt rc j = some v → v.toNat < P)

/-- The reset check: no bad entry exactly when the table is well formed, else the least bad index, which is below 336
(`70_reset_and_hazards.md` R243). -/
def Obligations.ResetCheckFindsLeastBadEntry : Prop :=
  ∀ rc : RcTable,
    (firstBad rc = none ↔ rc.WellFormed) ∧
    (∀ k, firstBad rc = some k ↔
      k < 336 ∧ (∃ w, cromAt rc k = some w ∧ P ≤ w.toNat) ∧
        ∀ j w, j < k → cromAt rc j = some w → w.toNat < P)

/-- A write to CTRL, in every state including FATAL = 1: bit 0 = 1 performs reset, bit 0 = 0 does nothing
(`20_memory.md` R58). That what the host has still to say is kept is the model's choice (log 12). -/
def Obligations.SoftResetFromEveryState : Prop :=
  ∀ (s : State) (w : Word) (rest : List BusEvent),
    s.pending = .write 0x014 (wordBytes w) :: rest → s.resetLine = false →
    (w.getLsbD 0 = true →
      step s = .next { State.resetWith s.rc with pending := rest, resetLine := false, reply := none }) ∧
    (w.getLsbD 0 = false → step s = .next (takeEvent rest s))

/-- The reset input: asserted, the engine answers no bus access and stands still (log 10); released, it is in the reset
state (`70_reset_and_hazards.md` R240). That what the host has still to say is kept over the release (log 12), and that
driving the input to the released level it has changes nothing (log 10), are the model's choices. -/
def Obligations.ResetPinHoldsAndResets : Prop :=
  ∀ (s : State) (rest : List BusEvent),
    (s.pending = .resetPin true :: rest → step s = .next { takeEvent rest s with resetLine := true }) ∧
    (∀ off size, s.pending = .read off size :: rest → s.resetLine = true → step s = .next (takeEvent rest s)) ∧
    (∀ off data, s.pending = .write off data :: rest → s.resetLine = true → step s = .next (takeEvent rest s)) ∧
    (s.pending = .resetPin false :: rest → s.resetLine = true →
      step s = .next { State.resetWith s.rc with pending := rest, resetLine := false, reply := none }) ∧
    (s.pending = .resetPin false :: rest → s.resetLine = false → step s = .next (takeEvent rest s))

/-- With a malformed table no command ever executes (`70_reset_and_hazards.md` R243, `60_exceptions.md` R202): an engine
dead of its table stays so in every step, the reset state with a malformed table is one whatever the host issues, and so
after any run FATAL is 1 with cause CFG and every field register has its reset value. That the registers and FATAL stand
while the reset input is asserted is the model's choice (log 10). -/
def Obligations.MalformedTableNeverRuns : Prop :=
  (∀ s t : State, s.DeadOfTable → step s = .next t → t.DeadOfTable) ∧
  (∀ (rc : RcTable) (events : List BusEvent), ¬ rc.WellFormed →
    { State.resetWith rc with pending := events }.DeadOfTable) ∧
  (∀ (rc : RcTable) (events : List BusEvent) (n : Nat) (t : State), ¬ rc.WellFormed →
    Sys2Proof.core.run n { State.resetWith rc with pending := events } = .next t →
    t.fatal = true ∧ t.err = .cfg ∧ firstBad rc = some t.errInfo.toNat ∧ ∀ i : FReg, t.reg i = ⟨0, 31⟩)

/-- FATAL is left by reset only, and until then ERR, ERRINFO and every field register stand (`60_exceptions.md` R208,
R207). That they stand when the reset input is asserted, and while it is, is the model's choice (log 10). -/
def Obligations.FatalLeavesOnlyByReset : Prop :=
  ∀ s t : State, s.fatal = true → step s = .next t →
    (t.fatal = true ∧ t.err = s.err ∧ t.errInfo = s.errInfo ∧ t.regs = s.regs) ∨
    (∃ rest w, s.pending = .write 0x014 (wordBytes w) :: rest ∧ w.getLsbD 0 = true ∧ s.resetLine = false) ∨
    (∃ rest, s.pending = .resetPin false :: rest ∧ s.resetLine = true)

/-- While FATAL = 1 nothing the host sees depends on the field registers: two states that differ in them only give the
same replies, for as long as they run (`60_exceptions.md` R207, `20_memory.md` R64). What stands while the reset input is
asserted is the model's choice (log 10). -/
def Obligations.FatalHidesFieldRegisters : Prop :=
  ∀ (n : Nat) (s s' t t' : State), s.fatal = true → s.SameBeyondRegs s' →
    Sys2Proof.core.run n s = .next t → Sys2Proof.core.run n s' = .next t' → t.reply = t'.reply ∧ t.SameBeyondRegs t'

/-- Errors are precise: a step that enters the fatal state, but for a reset, has written no field register and moved
nothing else (`60_exceptions.md` R207). -/
def Obligations.ErrorsArePrecise : Prop :=
  ∀ s t : State, s.fatal = false → step s = .next t → t.fatal = true → t.err ≠ .cfg →
    t.regs = s.regs ∧ t.phase = s.phase ∧ t.rnd = s.rnd ∧ t.rc = s.rc ∧ t.resetLine = s.resetLine ∧
      s.pending.tail = t.pending

/-- No command and no bus access writes the constant ROM, and reset does not change it (`10_state.md` R26,
`70_reset_and_hazards.md` R244). -/
def Obligations.ConstantRomNeverChanges : Prop := ∀ s t : State, step s = .next t → t.rc = s.rc

/-! ### The window -/

/-- The map of the window and the accesses that are legal: four bytes, at the offset of a register, in a direction the
map lists (`20_memory.md` R51, R52). -/
def Obligations.WindowMapAndLegalAccesses : Prop :=
  (∀ (off : BitVec 12) (r : WindowReg), windowAt off = some r ↔ off.toNat = r.offset) ∧
  (∀ (off : BitVec 12) (size : Nat) (r : WindowReg),
    legalRead off size = some r ↔ size = 4 ∧ off.toNat = r.offset ∧ r ≠ .cmd ∧ r ≠ .ctrl) ∧
  (∀ (off : BitVec 12) (data : List Byte) (r : WindowReg),
    (∃ w, legalWrite off data = some (r, w)) ↔
      data.length = 4 ∧ off.toNat = r.offset ∧ (r = .cmd ∨ r = .ctrl ∨ ∃ i, r = .f i))

/-- Reads of STATUS, ERR, ERRINFO, CFG and CROMW return their words in every state, and change nothing
(`20_memory.md` R54, R55, R56, R57, R62). -/
def Obligations.RegisterReadsReturnTheirWords : Prop :=
  ∀ (s : State) (off : BitVec 12) (rest : List BusEvent), s.pending = .read off 4 :: rest → s.resetLine = false →
    (off = 0x004 → step s =
      .next { takeEvent rest s with reply := some (wordBytes (if s.fatal then 0x00000001 else 0x00000000)) }) ∧
    (off = 0x008 → step s =
      .next { takeEvent rest s with reply := some (wordBytes (BitVec.ofNat 32 s.err.code.toNat)) }) ∧
    (off = 0x00C → step s = .next { takeEvent rest s with reply := some (wordBytes s.errInfo) }) ∧
    (off = 0x010 → step s = .next { takeEvent rest s with reply := some (wordBytes 0x0100D810) }) ∧
    (∀ k, k < 356 → off.toNat = 0x800 + 4 * k →
      ∃ w, cromAt s.rc k = some w ∧ step s = .next { takeEvent rest s with reply := some (wordBytes w) })

/-- With FATAL = 0: a write of any word to `F[i]` gives `(w, 32)`; a read of `F[i]` returns `val mod P` and a read of
`FBW[i]` the width, and neither read changes anything (`20_memory.md` R59, R60, R61). -/
def Obligations.FieldRegisterReadsAndWrites : Prop :=
  ∀ (s : State) (off : BitVec 12) (rest : List BusEvent) (i : FReg), s.resetLine = false → s.fatal = false →
    (∀ w : Word, s.pending = .write off (wordBytes w) :: rest → off.toNat = 0x080 + 4 * i.val →
      ∃ t, step s = .next t ∧ t.reg i = ⟨w.toNat, 32⟩ ∧ (takeEvent rest s).OnlyRegs (· = i) t) ∧
    (s.pending = .read off 4 :: rest → off.toNat = 0x080 + 4 * i.val → step s =
      .next { takeEvent rest s with reply := some (wordBytes (BitVec.ofNat 32 ((s.reg i).val % P))) }) ∧
    (s.pending = .read off 4 :: rest → off.toNat = 0x100 + 4 * i.val → step s =
      .next { takeEvent rest s with reply := some (wordBytes (BitVec.ofNat 32 (s.reg i).bw)) })

/-- An illegal access with FATAL = 0 raises BUS_ACCESS with the offset in bits 11:0 and bit 31 = 1 for a write; a read
returns POISON, a write changes nothing else (`20_memory.md` R63). That a read of another size returns that many bytes
0xFF is the model's choice (log 9). -/
def Obligations.IllegalAccessRaisesBusAccess : Prop :=
  ∀ (s : State) (off : BitVec 12) (rest : List BusEvent), s.resetLine = false → s.fatal = false →
    (∀ size, s.pending = .read off size :: rest → legalRead off size = none →
      step s = .next { (takeEvent rest s).raised .busAccess (BitVec.ofNat 32 off.toNat) with
        reply := some (List.replicate size 0xFF) }) ∧
    (∀ data, s.pending = .write off data :: rest → legalWrite off data = none →
      step s = .next ((takeEvent rest s).raised .busAccess (BitVec.ofNat 32 (2 ^ 31 + off.toNat)))) ∧
    ErrCode.code .busAccess = 4

/-- Accesses while FATAL = 1: data reads and illegal reads return POISON, a write to CTRL works, every other write is
ignored, and no access changes ERR or ERRINFO (`20_memory.md` R64; the status reads are
`RegisterReadsReturnTheirWords`). The bytes of a read of another size are the model's choice (log 9). -/
def Obligations.AccessesWhileFatal : Prop :=
  ∀ (s : State) (off : BitVec 12) (rest : List BusEvent), s.resetLine = false → s.fatal = true →
    (∀ i : FReg, s.pending = .read off 4 :: rest →
      off.toNat = 0x080 + 4 * i.val ∨ off.toNat = 0x100 + 4 * i.val →
      step s = .next { takeEvent rest s with reply := some (wordBytes 0xFFFFFFFF) }) ∧
    (∀ size, s.pending = .read off size :: rest → legalRead off size = none →
      step s = .next { takeEvent rest s with reply := some (List.replicate size 0xFF) }) ∧
    (∀ data, s.pending = .write off data :: rest → off ≠ 0x014 ∨ data.length ≠ 4 →
      step s = .next (takeEvent rest s))

/-- The byte at lane `k` of a word is `word[8k+7:8k]`, and the four lanes make the word again (`20_memory.md` R65). -/
def Obligations.LittleEndianLanes : Prop :=
  ∀ w : Word, (∀ k, k < 4 → (wordBytes w)[k]? = some (w.extractLsb' (8 * k) 8)) ∧ wordOfBytes (wordBytes w) = some w

/-- The engine answers the byte addresses BASE to BASE + 4095 and no others; BASE is a multiple of 4096
(`20_memory.md` R50). BASE is open (log 2). -/
def Obligations.HostAccessReachesTheWindow : Prop :=
  Config.base % 4096 = 0 ∧
  ∀ (addr n : Nat) (data : List Byte) (s : State),
    (Config.base ≤ addr → addr ≤ Config.base + 4095 →
      ∃ off : BitVec 12, off.toNat = addr - Config.base ∧
        hostRead addr n s = { s with pending := s.pending ++ [.read off n] } ∧
        hostWrite addr data s = { s with pending := s.pending ++ [.write off data] }) ∧
    (addr < Config.base ∨ Config.base + 4095 < addr → hostRead addr n s = s ∧ hostWrite addr data s = s)

/-- One permutation by the normal protocol: load sixteen words of any value, write PERM to CMD, and read `S[i]` back:
the word read is element `i` of `PERMUTE` of the words taken modulo `P`, and is below `P` (`70_reset_and_hazards.md`
R247). -/
def Obligations.PermutationProtocol : Prop :=
  ∀ (s : State) (x : Fin 16 → Word) (i : Fin 16) (rest : List BusEvent), s.fatal = false → s.resetLine = false →
    s.pending = loadEvents x ++ [.write 0x000 (wordBytes 0x60000000),
      .read (BitVec.ofNat 12 (0x080 + 4 * i.val)) 4] ++ rest →
    ∃ t, Sys2Proof.core.run 18 s = .next t ∧
      t.reply = some (wordBytes (BitVec.ofNat 32 (permute s.rc (fun k => toFp (x k).toNat) i).val)) ∧
      t.fatal = false ∧ t.pending = rest
end

