-- ==== Sys2Proof/Laws/PerInstr.lean ====
section
/-! SUPPORT. The per-instruction family `OpcodeAndFields`: a command's word is its opcode of `30_encoding.md` R89 in
bits 31:26 over operand bits below. -/

namespace Sys2Proof.Laws.OpcodeAndFields

/-- The operand bits stay below bit 26 and the opcode is read back from bits 31:26. -/
def Statement (i : Instr) : Prop := i.operandBits < 2 ^ 26 ∧ fieldOp (encode i) = i.opcode

/-- An opcode of six bits over operand bits below bit 26 is read back whole. -/
theorem fieldOp_of_parts {op rest : Nat} (ho : op < 64) (hr : rest < 2 ^ 26) :
    fieldOp (BitVec.ofNat 32 (op * 2 ^ 26 + rest)) = op := by
  simp only [fieldOp, bitField, BitVec.toNat_ofNat]
  omega

theorem of_bound {i : Instr} (ho : i.opcode < 64) (hr : i.operandBits < 2 ^ 26) : Statement i :=
  ⟨hr, fieldOp_of_parts ho hr⟩

theorem fldc (rd : FReg) (c : CIdx) : Statement (.fldc rd c) :=
  of_bound (by simp only [Instr.opcode]; decide) (by simp only [Instr.operandBits]; omega)

theorem fadd (rd ra rb : FReg) : Statement (.fadd rd ra rb) :=
  of_bound (by simp only [Instr.opcode]; decide) (by simp only [Instr.operandBits]; omega)

theorem fmulc (rd ra : FReg) (c : CIdx) : Statement (.fmulc rd ra c) :=
  of_bound (by simp only [Instr.opcode]; decide) (by simp only [Instr.operandBits]; omega)

theorem fmul (rd ra rb : FReg) : Statement (.fmul rd ra rb) :=
  of_bound (by simp only [Instr.opcode]; decide) (by simp only [Instr.operandBits]; omega)

theorem fred (rd ra : FReg) : Statement (.fred rd ra) :=
  of_bound (by simp only [Instr.opcode]; decide) (by simp only [Instr.operandBits]; omega)

theorem sbox (rd ra : FReg) : Statement (.sbox rd ra) :=
  of_bound (by simp only [Instr.opcode]; decide) (by simp only [Instr.operandBits]; omega)

theorem sboxf : Statement .sboxf := of_bound (by decide) (by decide)

theorem sboxp : Statement .sboxp := of_bound (by decide) (by decide)

theorem arcf (r : RowField) : Statement (.arcf r) :=
  of_bound (by simp only [Instr.opcode]; decide) (by simp only [Instr.operandBits]; omega)

theorem arcp (r : RowField) : Statement (.arcp r) :=
  of_bound (by simp only [Instr.opcode]; decide) (by simp only [Instr.operandBits]; omega)

theorem mext : Statement .mext := of_bound (by decide) (by decide)

theorem mint : Statement .mint := of_bound (by decide) (by decide)

theorem rndf (r : RowField) : Statement (.rndf r) :=
  of_bound (by simp only [Instr.opcode]; decide) (by simp only [Instr.operandBits]; omega)

theorem rndp (r : RowField) : Statement (.rndp r) :=
  of_bound (by simp only [Instr.opcode]; decide) (by simp only [Instr.operandBits]; omega)

theorem perm : Statement .perm := of_bound (by decide) (by decide)

end Sys2Proof.Laws.OpcodeAndFields
end

