-- ==== Sys2Proof/Laws/Decode.lean ====
section
/-! SUPPORT. The fields of a command word as plain arithmetic on its number, and of a word made of an opcode and
operand bits. -/

namespace Sys2Proof

theorem fieldOp_eq (w : Word) : fieldOp w = w.toNat / 2 ^ 26 := by
  simp only [fieldOp, bitField]
  omega

theorem fieldRd_val (w : Word) : (fieldRd w).val = w.toNat / 2 ^ 21 % 32 := by
  simp [fieldRd, bitField]

theorem fieldRa_val (w : Word) : (fieldRa w).val = w.toNat / 2 ^ 16 % 32 := by
  simp [fieldRa, bitField]

theorem fieldRb_val (w : Word) : (fieldRb w).val = w.toNat / 2 ^ 11 % 32 := by
  simp [fieldRb, bitField]

theorem fieldCidx_val (w : Word) : (fieldCidx w).val = w.toNat % 512 := by
  simp [fieldCidx, bitField]

theorem fieldRow_val (w : Word) : (fieldRow w).val = w.toNat % 32 := by
  simp [fieldRow, bitField]

theorem encode_toNat (i : Instr) (ho : i.opcode < 64) (hr : i.operandBits < 2 ^ 26) :
    (encode i).toNat = i.opcode * 2 ^ 26 + i.operandBits := by
  simp only [encode, BitVec.toNat_ofNat]
  omega

/-- The checks after the opcode pass exactly when the must-be-zero bits are 0 and the operands legal. -/
theorem checkWord_eq_ok {mbz : Nat} {i j : Instr} : checkWord mbz i = .ok j ↔ mbz = 0 ∧ i.wf = true ∧ i = j := by
  unfold checkWord
  split
  · split
    · simp [*]
    · simp [*]
  · simp [*]

end Sys2Proof
end

