-- ==== Sys2Proof/Laws/State.lean ====
section
/-! SUPPORT. Every field of State after every update of it, so that no later proof unfolds a record
update. -/

namespace Sys2Proof.Machine

/-! ### F[i] <- r -/

@[simp] theorem setReg_fatal (s : State) (i : FReg) (r : FieldReg) : (s.setReg i r).fatal = s.fatal := rfl
@[simp] theorem setReg_err (s : State) (i : FReg) (r : FieldReg) : (s.setReg i r).err = s.err := rfl
@[simp] theorem setReg_errInfo (s : State) (i : FReg) (r : FieldReg) : (s.setReg i r).errInfo = s.errInfo := rfl
@[simp] theorem setReg_phase (s : State) (i : FReg) (r : FieldReg) : (s.setReg i r).phase = s.phase := rfl
@[simp] theorem setReg_rnd (s : State) (i : FReg) (r : FieldReg) : (s.setReg i r).rnd = s.rnd := rfl
@[simp] theorem setReg_rc (s : State) (i : FReg) (r : FieldReg) : (s.setReg i r).rc = s.rc := rfl
@[simp] theorem setReg_resetLine (s : State) (i : FReg) (r : FieldReg) : (s.setReg i r).resetLine = s.resetLine := rfl
@[simp] theorem setReg_pending (s : State) (i : FReg) (r : FieldReg) : (s.setReg i r).pending = s.pending := rfl
@[simp] theorem setReg_reply (s : State) (i : FReg) (r : FieldReg) : (s.setReg i r).reply = s.reply := rfl

/-! ### S <- v -/

@[simp] theorem setStateVec_fatal (s : State) (v : StateVec) : (s.setStateVec v).fatal = s.fatal := rfl
@[simp] theorem setStateVec_err (s : State) (v : StateVec) : (s.setStateVec v).err = s.err := rfl
@[simp] theorem setStateVec_errInfo (s : State) (v : StateVec) : (s.setStateVec v).errInfo = s.errInfo := rfl
@[simp] theorem setStateVec_phase (s : State) (v : StateVec) : (s.setStateVec v).phase = s.phase := rfl
@[simp] theorem setStateVec_rnd (s : State) (v : StateVec) : (s.setStateVec v).rnd = s.rnd := rfl
@[simp] theorem setStateVec_rc (s : State) (v : StateVec) : (s.setStateVec v).rc = s.rc := rfl
@[simp] theorem setStateVec_resetLine (s : State) (v : StateVec) : (s.setStateVec v).resetLine = s.resetLine := rfl
@[simp] theorem setStateVec_pending (s : State) (v : StateVec) : (s.setStateVec v).pending = s.pending := rfl
@[simp] theorem setStateVec_reply (s : State) (v : StateVec) : (s.setStateVec v).reply = s.reply := rfl

/-! ### raise -/

@[simp] theorem raised_regs (s : State) (c : ErrCode) (w : Word) : (s.raised c w).regs = s.regs := rfl
@[simp] theorem raised_fatal (s : State) (c : ErrCode) (w : Word) : (s.raised c w).fatal = true := rfl
@[simp] theorem raised_err (s : State) (c : ErrCode) (w : Word) : (s.raised c w).err = c := rfl
@[simp] theorem raised_errInfo (s : State) (c : ErrCode) (w : Word) : (s.raised c w).errInfo = w := rfl
@[simp] theorem raised_phase (s : State) (c : ErrCode) (w : Word) : (s.raised c w).phase = s.phase := rfl
@[simp] theorem raised_rnd (s : State) (c : ErrCode) (w : Word) : (s.raised c w).rnd = s.rnd := rfl
@[simp] theorem raised_rc (s : State) (c : ErrCode) (w : Word) : (s.raised c w).rc = s.rc := rfl
@[simp] theorem raised_resetLine (s : State) (c : ErrCode) (w : Word) : (s.raised c w).resetLine = s.resetLine := rfl
@[simp] theorem raised_pending (s : State) (c : ErrCode) (w : Word) : (s.raised c w).pending = s.pending := rfl
@[simp] theorem raised_reply (s : State) (c : ErrCode) (w : Word) : (s.raised c w).reply = s.reply := rfl

/-! ### Reset -/

@[simp] theorem resetEngine_regs (s : State) : (resetEngine s).regs = Vector.replicate 32 ⟨0, 31⟩ := rfl
@[simp] theorem resetEngine_fatal (s : State) : (resetEngine s).fatal = (firstBad s.rc).isSome := rfl
@[simp] theorem resetEngine_err (s : State) : (resetEngine s).err = if (firstBad s.rc).isSome then .cfg else .noError := rfl
@[simp] theorem resetEngine_errInfo (s : State) : (resetEngine s).errInfo = BitVec.ofNat 32 ((firstBad s.rc).getD 0) := rfl
@[simp] theorem resetEngine_phase (s : State) : (resetEngine s).phase = .idle := rfl
@[simp] theorem resetEngine_rnd (s : State) : (resetEngine s).rnd = 0 := rfl
@[simp] theorem resetEngine_rc (s : State) : (resetEngine s).rc = s.rc := rfl
@[simp] theorem resetEngine_resetLine (s : State) : (resetEngine s).resetLine = s.resetLine := rfl
@[simp] theorem resetEngine_pending (s : State) : (resetEngine s).pending = s.pending := rfl
@[simp] theorem resetEngine_reply (s : State) : (resetEngine s).reply = s.reply := rfl

@[simp] theorem resetWith_regs (rc : RcTable) : (State.resetWith rc).regs = Vector.replicate 32 ⟨0, 31⟩ := rfl
@[simp] theorem resetWith_fatal (rc : RcTable) : (State.resetWith rc).fatal = (firstBad rc).isSome := rfl
@[simp] theorem resetWith_err (rc : RcTable) : (State.resetWith rc).err = if (firstBad rc).isSome then .cfg else .noError := rfl
@[simp] theorem resetWith_errInfo (rc : RcTable) : (State.resetWith rc).errInfo = BitVec.ofNat 32 ((firstBad rc).getD 0) := rfl
@[simp] theorem resetWith_phase (rc : RcTable) : (State.resetWith rc).phase = .idle := rfl
@[simp] theorem resetWith_rnd (rc : RcTable) : (State.resetWith rc).rnd = 0 := rfl
@[simp] theorem resetWith_rc (rc : RcTable) : (State.resetWith rc).rc = rc := rfl
@[simp] theorem resetWith_resetLine (rc : RcTable) : (State.resetWith rc).resetLine = false := rfl
@[simp] theorem resetWith_pending (rc : RcTable) : (State.resetWith rc).pending = [] := rfl
@[simp] theorem resetWith_reply (rc : RcTable) : (State.resetWith rc).reply = none := rfl

/-! ### The host interface -/

@[simp] theorem takeEvent_regs (rest : List BusEvent) (s : State) : (takeEvent rest s).regs = s.regs := rfl
@[simp] theorem takeEvent_fatal (rest : List BusEvent) (s : State) : (takeEvent rest s).fatal = s.fatal := rfl
@[simp] theorem takeEvent_err (rest : List BusEvent) (s : State) : (takeEvent rest s).err = s.err := rfl
@[simp] theorem takeEvent_errInfo (rest : List BusEvent) (s : State) : (takeEvent rest s).errInfo = s.errInfo := rfl
@[simp] theorem takeEvent_phase (rest : List BusEvent) (s : State) : (takeEvent rest s).phase = s.phase := rfl
@[simp] theorem takeEvent_rnd (rest : List BusEvent) (s : State) : (takeEvent rest s).rnd = s.rnd := rfl
@[simp] theorem takeEvent_rc (rest : List BusEvent) (s : State) : (takeEvent rest s).rc = s.rc := rfl
@[simp] theorem takeEvent_resetLine (rest : List BusEvent) (s : State) : (takeEvent rest s).resetLine = s.resetLine := rfl
@[simp] theorem takeEvent_pending (rest : List BusEvent) (s : State) : (takeEvent rest s).pending = rest := rfl
@[simp] theorem takeEvent_reply (rest : List BusEvent) (s : State) : (takeEvent rest s).reply = none := rfl

@[simp] theorem placeCommand_regs (w : Word) (s : State) : (placeCommand w s).regs = s.regs := rfl
@[simp] theorem placeCommand_fatal (w : Word) (s : State) : (placeCommand w s).fatal = false := rfl
@[simp] theorem placeCommand_err (w : Word) (s : State) : (placeCommand w s).err = .noError := rfl
@[simp] theorem placeCommand_errInfo (w : Word) (s : State) : (placeCommand w s).errInfo = 0 := rfl
@[simp] theorem placeCommand_phase (w : Word) (s : State) : (placeCommand w s).phase = s.phase := rfl
@[simp] theorem placeCommand_rnd (w : Word) (s : State) : (placeCommand w s).rnd = s.rnd := rfl
@[simp] theorem placeCommand_rc (w : Word) (s : State) : (placeCommand w s).rc = s.rc := rfl
@[simp] theorem placeCommand_resetLine (w : Word) (s : State) : (placeCommand w s).resetLine = false := rfl
@[simp] theorem placeCommand_pending (w : Word) (s : State) : (placeCommand w s).pending = .write 0x000 (wordBytes w) :: s.pending := rfl
@[simp] theorem placeCommand_reply (w : Word) (s : State) : (placeCommand w s).reply = s.reply := rfl

/-! ### The sequencer's start -/

@[simp] theorem seqStart_regs (s : State) : (seqStart s).regs = s.regs := rfl
@[simp] theorem seqStart_fatal (s : State) : (seqStart s).fatal = s.fatal := rfl
@[simp] theorem seqStart_err (s : State) : (seqStart s).err = s.err := rfl
@[simp] theorem seqStart_errInfo (s : State) : (seqStart s).errInfo = s.errInfo := rfl
@[simp] theorem seqStart_phase (s : State) : (seqStart s).phase = .init := rfl
@[simp] theorem seqStart_rnd (s : State) : (seqStart s).rnd = 0 := rfl
@[simp] theorem seqStart_rc (s : State) : (seqStart s).rc = s.rc := rfl
@[simp] theorem seqStart_resetLine (s : State) : (seqStart s).resetLine = s.resetLine := rfl
@[simp] theorem seqStart_pending (s : State) : (seqStart s).pending = s.pending := rfl
@[simp] theorem seqStart_reply (s : State) : (seqStart s).reply = s.reply := rfl

end Sys2Proof.Machine
end

