-- ==== Sys2Proof/Laws/Operands.lean ====
section
/-! SUPPORT. Reading field registers after writing them, and what an integer denotes in `Fp`. -/

namespace Sys2Proof.Machine

/-! ### Denotation -/

@[simp] theorem toFp_val (v : Nat) : (toFp v).val = v % P := rfl

@[simp] theorem toFp_val_self (x : Fp) : toFp x.val = x := Fin.ext (Nat.mod_eq_of_lt x.isLt)

theorem toFp_eq_iff (a b : Nat) : toFp a = toFp b ↔ a % P = b % P := Fin.ext_iff

theorem toFp_add (a b : Nat) : toFp (a + b) = toFp a + toFp b :=
  Fin.ext (by rw [Fin.val_add]; simp [Nat.add_mod])

theorem toFp_mul (a b : Nat) : toFp (a * b) = toFp a * toFp b :=
  Fin.ext (by rw [Fin.val_mul]; simp [Nat.mul_mod])

theorem toFp_mod (a : Nat) : toFp (a % P) = toFp a := (toFp_eq_iff _ _).2 (Nat.mod_mod _ _)

/-! ### Canonical registers -/

@[simp] theorem reduced_val (x : Fp) : (reduced x).val = x.val := rfl

@[simp] theorem reduced_bw (x : Fp) : (reduced x).bw = 31 := rfl

theorem reduced_canonical (x : Fp) : (reduced x).Canonical := ⟨x.isLt, rfl⟩

theorem reduced_ok (x : Fp) : (reduced x).Ok :=
  ⟨lt_trans x.isLt (by show P < 2 ^ 31; decide), le_refl _, by show 31 ≤ 256; decide⟩

/-! ### Register reads after writes -/

@[simp] theorem reg_setReg_same (s : State) (i : FReg) (r : FieldReg) : (s.setReg i r).reg i = r := by
  simp [State.reg, State.setReg]

theorem reg_setReg_other (s : State) {i j : FReg} (r : FieldReg) (h : j ≠ i) : (s.setReg i r).reg j = s.reg j := by
  have : i.val ≠ j.val := fun e => h (Fin.ext e.symm)
  simp [State.reg, State.setReg, this]

theorem reg_setReg (s : State) (i j : FReg) (r : FieldReg) :
    (s.setReg i r).reg j = if j = i then r else s.reg j := by
  split
  · next h => rw [h, reg_setReg_same]
  · next h => exact reg_setReg_other s r h

/-- All there is to know of the register file after `S <- v`. -/
theorem getElem_stateRegs (regs : Vector FieldReg 32) (v : StateVec) (j : FReg) :
    (stateRegs regs v)[j] = if h : j.val < 16 then reduced (v ⟨j.val, h⟩) else regs[j] := by
  unfold stateRegs
  simp

theorem reg_setStateVec (s : State) (v : StateVec) (j : FReg) :
    (s.setStateVec v).reg j = if h : j.val < 16 then reduced (v ⟨j.val, h⟩) else s.reg j := by
  exact getElem_stateRegs s.regs v j

@[simp] theorem reg_setStateVec_sReg (s : State) (v : StateVec) (i : Fin 16) :
    (s.setStateVec v).reg (sReg i) = reduced (v i) := by
  simp [reg_setStateVec, sReg]

theorem reg_setStateVec_other (s : State) (v : StateVec) {j : FReg} (h : ¬ j.val < 16) :
    (s.setStateVec v).reg j = s.reg j := by
  simp [reg_setStateVec, h]

@[simp] theorem stateVec_setStateVec (s : State) (v : StateVec) : (s.setStateVec v).stateVec = v := by
  funext i
  simp [State.stateVec, State.canon]

@[simp] theorem canon_setReg_same (s : State) (i : FReg) (r : FieldReg) : (s.setReg i r).canon i = toFp r.val := by
  simp [State.canon]

theorem canon_setReg_other (s : State) {i j : FReg} (r : FieldReg) (h : j ≠ i) :
    (s.setReg i r).canon j = s.canon j := by
  simp [State.canon, reg_setReg_other s r h]

@[simp] theorem canon_setStateVec_sReg (s : State) (v : StateVec) (i : Fin 16) :
    (s.setStateVec v).canon (sReg i) = v i := by
  simp [State.canon]

/-- Two states with the same registers and the same rest are the same. -/
theorem State.ext_reg {s t : State} (regs : ∀ j : FReg, t.reg j = s.reg j) (rest : s.SameBeyondRegs t) : t = s :=
  State.ext (Vector.ext fun k hk => regs ⟨k, hk⟩) rest.fatal rest.err rest.errInfo rest.phase rest.rnd rest.rc
    rest.resetLine rest.pending rest.reply

theorem setStateVec_setStateVec (s : State) (v w : StateVec) : (s.setStateVec v).setStateVec w = s.setStateVec w := by
  refine State.ext_reg (fun j => ?_) (by constructor <;> simp)
  simp only [reg_setStateVec]
  split <;> rfl

/-- The frame of a write to one register. -/
theorem onlyRegs_setReg (s : State) (i : FReg) (r : FieldReg) : s.OnlyRegs (· = i) (s.setReg i r) :=
  ⟨fun _ h => reg_setReg_other s r h, ⟨rfl, rfl, rfl, rfl, rfl, rfl, rfl, rfl, rfl⟩⟩

/-- The frame of a write to the state registers. -/
theorem onlyRegs_setStateVec (s : State) (v : StateVec) : s.OnlyRegs IsStateReg (s.setStateVec v) :=
  ⟨fun _ h => reg_setStateVec_other s v h, by constructor <;> simp⟩

end Sys2Proof.Machine
end

