-- ==== Sys2Proof/Laws/Ops.lean ====
section
/-! SUPPORT. What each shared operation can do, once: raising, the producers' end, operands that may not exist, and the
frame every command keeps. -/

namespace Sys2Proof.Machine

/-! ### raise -/

theorem raise_of_not_fatal {s : State} (h : s.fatal = false) (c : ErrCode) (w : Word) : raise c w s = s.raised c w := by
  simp [raise, h, State.raised]

theorem raise_of_fatal {s : State} (h : s.fatal = true) (c : ErrCode) (w : Word) : raise c w s = s := by
  simp [raise, h]

/-- `raise` changes the three error fields at most. -/
theorem raise_keeps (c : ErrCode) (w : Word) (s : State) :
    (raise c w s).regs = s.regs ∧ (raise c w s).phase = s.phase ∧ (raise c w s).rnd = s.rnd ∧
      (raise c w s).rc = s.rc ∧ (raise c w s).resetLine = s.resetLine ∧ (raise c w s).pending = s.pending ∧
      (raise c w s).reply = s.reply := by
  unfold raise
  split <;> exact ⟨rfl, rfl, rfl, rfl, rfl, rfl, rfl⟩

/-! ### The producers -/

theorem produce_of_fits {r : FieldReg} (h : r.bw ≤ 256) (i : Instr) (rd : FReg) (s : State) :
    produce i rd r s = s.setReg rd r := by
  simp [produce, tooWide, Config.bwMax, Nat.not_lt.2 h]

theorem produce_of_tooWide {r : FieldReg} (h : 256 < r.bw) (i : Instr) (rd : FReg) (s : State) :
    produce i rd r s = raise .arithOverflow (encode i) s := by
  simp [produce, tooWide, Config.bwMax, h]

/-! ### Operands that may not exist -/

/-- CROM has exactly the entries 0 to 355 (`10_state.md` R27). -/
theorem cromAt_isSome (rc : RcTable) (k : Nat) : (cromAt rc k).isSome = decide (k < 356) := by
  unfold cromAt
  split
  · simp; omega
  · split
    · simp; omega
    · split
      · simp; omega
      · split
        · simp; omega
        · split
          · simp; omega
          · split
            · simp; omega
            · simp; omega

theorem withConstant_of_some {s : State} {c : CIdx} {w : Word} (h : cromAt s.rc c.val = some w) (i : Instr)
    (k : Word → State) : withConstant i c s k = k w := by
  simp [withConstant, State.constant, h]

theorem withConstant_of_illegal {s : State} {c : CIdx} (h : 356 ≤ c.val) (i : Instr) (k : Word → State) :
    withConstant i c s k = raise .illegalCmd (encode i) s := by
  have : cromAt s.rc c.val = none := by
    have := cromAt_isSome s.rc c.val
    rw [decide_eq_false (by omega)] at this
    simpa using this
  simp [withConstant, State.constant, this]

theorem withRow_of_legal {r : RowField} (h : r.val < 21) (i : Instr) (s : State) (k : Fin 21 → State) :
    withRow i r s k = k ⟨r.val, h⟩ := by
  simp [withRow, rowOperand, h]

theorem withRow_of_illegal {r : RowField} (h : ¬ r.val < 21) (i : Instr) (s : State) (k : Fin 21 → State) :
    withRow i r s k = raise .illegalCmd (encode i) s := by
  simp [withRow, rowOperand, h]

/-! ### The host's side is no command's to touch -/

/-- What no command changes: the ROM's table and the host interface. -/
structure KeepsHostSide (s t : State) : Prop where
  rc : t.rc = s.rc
  resetLine : t.resetLine = s.resetLine
  pending : t.pending = s.pending
  reply : t.reply = s.reply

theorem KeepsHostSide.refl (s : State) : KeepsHostSide s s := ⟨rfl, rfl, rfl, rfl⟩

theorem KeepsHostSide.trans {s t u : State} (a : KeepsHostSide s t) (b : KeepsHostSide t u) : KeepsHostSide s u :=
  ⟨b.rc.trans a.rc, b.resetLine.trans a.resetLine, b.pending.trans a.pending, b.reply.trans a.reply⟩

theorem raise_keepsHostSide (c : ErrCode) (w : Word) (s : State) : KeepsHostSide s (raise c w s) :=
  let ⟨_, _, _, rc, line, pending, reply⟩ := raise_keeps c w s
  ⟨rc, line, pending, reply⟩

theorem produce_keepsHostSide (i : Instr) (rd : FReg) (r : FieldReg) (s : State) :
    KeepsHostSide s (produce i rd r s) := by
  unfold produce
  split
  · exact raise_keepsHostSide _ _ _
  · exact ⟨rfl, rfl, rfl, rfl⟩

theorem withConstant_keepsHostSide {s : State} {k : Word → State} (h : ∀ w, KeepsHostSide s (k w)) (i : Instr)
    (c : CIdx) : KeepsHostSide s (withConstant i c s k) := by
  unfold withConstant
  split
  · exact h _
  · exact raise_keepsHostSide _ _ _

theorem withRow_keepsHostSide {s : State} {k : Fin 21 → State} (h : ∀ r, KeepsHostSide s (k r)) (i : Instr)
    (r : RowField) : KeepsHostSide s (withRow i r s k) := by
  unfold withRow
  split
  · exact h _
  · exact raise_keepsHostSide _ _ _

/-- A transition of the sequencer writes the state registers, PHASE and RND. -/
theorem seqStep_keepsHostSide (s : State) : KeepsHostSide s (seqStep s) := by
  unfold seqStep
  split <;> constructor <;> simp only [setStateVec_rc, setStateVec_resetLine, setStateVec_pending, setStateVec_reply]

theorem seqRun_keepsHostSide (n : Nat) (s : State) : KeepsHostSide s (seqRun n s) := by
  induction n generalizing s with
  | zero => exact KeepsHostSide.refl s
  | succ n ih => exact (seqStep_keepsHostSide s).trans (ih _)

/-- Every command answers a next state, and keeps the ROM's table and the host interface. -/
theorem exec_next (i : Instr) (s : State) : ∃ t, exec i s = .next t ∧ KeepsHostSide s t := by
  have w : ∀ i r, KeepsHostSide s (s.setReg i r) := fun _ _ => ⟨rfl, rfl, rfl, rfl⟩
  have v : ∀ u, KeepsHostSide s (s.setStateVec u) := fun _ => by constructor <;> simp
  cases i with
  | fldc rd c => exact ⟨_, rfl, withConstant_keepsHostSide (fun _ => w _ _) _ _⟩
  | fadd rd ra rb => exact ⟨_, rfl, produce_keepsHostSide _ _ _ _⟩
  | fmulc rd ra c => exact ⟨_, rfl, withConstant_keepsHostSide (fun _ => produce_keepsHostSide _ _ _ _) _ _⟩
  | fmul rd ra rb => exact ⟨_, rfl, produce_keepsHostSide _ _ _ _⟩
  | fred rd ra => exact ⟨_, rfl, w _ _⟩
  | sbox rd ra => exact ⟨_, rfl, w _ _⟩
  | sboxf => exact ⟨_, rfl, v _⟩
  | sboxp => exact ⟨_, rfl, w _ _⟩
  | arcf r => exact ⟨_, rfl, withRow_keepsHostSide (fun _ => v _) _ _⟩
  | arcp r => exact ⟨_, rfl, withRow_keepsHostSide (fun _ => w _ _) _ _⟩
  | mext => exact ⟨_, rfl, v _⟩
  | mint => exact ⟨_, rfl, v _⟩
  | rndf r => exact ⟨_, rfl, withRow_keepsHostSide (fun _ => v _) _ _⟩
  | rndp r => exact ⟨_, rfl, withRow_keepsHostSide (fun _ => v _) _ _⟩
  | perm => exact ⟨_, rfl, KeepsHostSide.trans (t := seqStart s) ⟨rfl, rfl, rfl, rfl⟩ (seqRun_keepsHostSide 22 (seqStart s))⟩

/-! ### Sequences of commands -/

theorem execSeq_cons {i : Instr} {s t : State} (h : exec i s = .next t) (rest : List Instr) :
    execSeq (i :: rest) s = execSeq rest t := by
  simp only [execSeq, h]

/-! ### The invariant under the shared operations -/

/-- The invariant is about the spec's state only. -/
theorem State.Inv.congr {s t : State} (h : s.Inv) (regs : t.regs = s.regs) (fatal : t.fatal = s.fatal)
    (err : t.err = s.err) (errInfo : t.errInfo = s.errInfo) (phase : t.phase = s.phase) (rnd : t.rnd = s.rnd)
    (rc : t.rc = s.rc) : t.Inv where
  regsOk := by
    intro i
    unfold State.reg
    rw [regs]
    exact h.regsOk i
  errIffFatal := by
    rw [fatal, err]
    exact h.errIffFatal
  errInfoFits := by
    have := h.errInfoFits
    unfold State.ErrInfoFits at *
    rw [err, errInfo, rc]
    exact this
  sequencerIdle := by
    rw [phase, rnd]
    exact h.sequencerIdle
  cfgIffMalformed := by
    rw [err, rc]
    exact h.cfgIffMalformed

theorem State.Inv.setReg {s : State} (h : s.Inv) (i : FReg) {r : FieldReg} (hr : r.Ok) : (s.setReg i r).Inv where
  regsOk := by
    intro j
    rw [reg_setReg]
    split
    · exact hr
    · exact h.regsOk j
  errIffFatal := h.errIffFatal
  errInfoFits := h.errInfoFits
  sequencerIdle := h.sequencerIdle
  cfgIffMalformed := h.cfgIffMalformed

theorem State.Inv.setStateVec {s : State} (h : s.Inv) (v : StateVec) : (s.setStateVec v).Inv where
  regsOk := by
    intro j
    rw [reg_setStateVec]
    split
    · exact reduced_ok _
    · exact h.regsOk j
  errIffFatal := by simpa using h.errIffFatal
  errInfoFits := by simpa [State.ErrInfoFits] using h.errInfoFits
  sequencerIdle := by simpa using h.sequencerIdle
  cfgIffMalformed := by simpa using h.cfgIffMalformed

/-- Raising a cause other than CFG, with the information word that fits it. -/
theorem State.Inv.raise {s : State} (h : s.Inv) {c : ErrCode} {w : Word} (none : c ≠ .noError) (cfg : c ≠ .cfg)
    (fits : (s.raised c w).ErrInfoFits) : (Machine.raise c w s).Inv := by
  by_cases f : s.fatal = true
  · rw [raise_of_fatal f]
    exact h
  · rw [Bool.not_eq_true] at f
    rw [raise_of_not_fatal f]
    have quiet : s.err = .noError := by
      by_contra hn
      rw [h.errIffFatal.2 hn] at f
      cases f
    refine ⟨h.regsOk, ⟨fun _ => none, fun _ => rfl⟩, fits, h.sequencerIdle, ?_⟩
    constructor
    · intro hc
      exact absurd hc cfg
    · intro hm
      rw [h.cfgIffMalformed.2 hm] at quiet
      cases quiet

end Sys2Proof.Machine
end

