-- ==== Sys2Proof/Laws/Sequencer.lean ====
section
/-! SUPPORT. The sequencer, transition by transition, and how writes to the state registers compose. -/

namespace Sys2Proof.Machine

/-- `s` on the way through `PERM`: state vector `v`, phase and round as given. -/
def State.midPerm (s : State) (v : StateVec) (phase : Phase) (rnd : Fin 21) : State :=
  { s.setStateVec v with phase := phase, rnd := rnd }

@[simp] theorem midPerm_phase (s : State) (v : StateVec) (p : Phase) (r : Fin 21) : (s.midPerm v p r).phase = p := rfl

@[simp] theorem midPerm_rnd (s : State) (v : StateVec) (p : Phase) (r : Fin 21) : (s.midPerm v p r).rnd = r := rfl

@[simp] theorem midPerm_rc (s : State) (v : StateVec) (p : Phase) (r : Fin 21) : (s.midPerm v p r).rc = s.rc :=
  setStateVec_rc s v

@[simp] theorem midPerm_stateVec (s : State) (v : StateVec) (p : Phase) (r : Fin 21) :
    (s.midPerm v p r).stateVec = v :=
  stateVec_setStateVec s v

theorem midPerm_reg (s : State) (v : StateVec) (p : Phase) (r : Fin 21) (j : FReg) :
    (s.midPerm v p r).reg j = (s.setStateVec v).reg j := rfl

theorem midPerm_again (s : State) (v w : StateVec) (p p' : Phase) (r r' : Fin 21) :
    { (s.midPerm v p r).setStateVec w with phase := p', rnd := r' } = s.midPerm w p' r' := by
  refine State.ext_reg (fun j => ?_) (by constructor <;> simp [State.midPerm])
  have h := congrArg (fun t => State.reg t j) (setStateVec_setStateVec s v w)
  exact h

/-- `INIT` to `EXT1` (`43_permutation_engine.md` R187). -/
theorem seqStep_start (s : State) : seqStep (seqStart s) = s.midPerm (ext s.stateVec) .ext1 0 := by
  have : seqStep (seqStart s) = { (seqStart s).setStateVec (ext (seqStart s).stateVec) with phase := .ext1, rnd := 0 } :=
    rfl
  rw [this]
  refine State.ext_reg (fun j => ?_) (by constructor <;> simp [State.midPerm])
  rfl

theorem seqStep_ext1 (s : State) (v : StateVec) (r : Fin 21) : seqStep (s.midPerm v .ext1 r) =
    s.midPerm (roundF s.rc r v) (if r.val < 3 then .ext1 else .int) (if r.val < 3 then r + 1 else 4) := by
  have : seqStep (s.midPerm v .ext1 r) =
      { (s.midPerm v .ext1 r).setStateVec
          (roundF (s.midPerm v .ext1 r).rc r (s.midPerm v .ext1 r).stateVec) with
        phase := if r.val < 3 then .ext1 else .int, rnd := if r.val < 3 then r + 1 else 4 } := rfl
  rw [this, midPerm_again, midPerm_rc, midPerm_stateVec]

theorem seqStep_int (s : State) (v : StateVec) (r : Fin 21) : seqStep (s.midPerm v .int r) =
    s.midPerm (roundP s.rc r v) (if r.val < 16 then .int else .ext2) (if r.val < 16 then r + 1 else 17) := by
  have : seqStep (s.midPerm v .int r) =
      { (s.midPerm v .int r).setStateVec (roundP (s.midPerm v .int r).rc r (s.midPerm v .int r).stateVec) with
        phase := if r.val < 16 then .int else .ext2, rnd := if r.val < 16 then r + 1 else 17 } := rfl
  rw [this, midPerm_again, midPerm_rc, midPerm_stateVec]

theorem seqStep_ext2 (s : State) (v : StateVec) (r : Fin 21) : seqStep (s.midPerm v .ext2 r) =
    s.midPerm (roundF s.rc r v) (if r.val < 20 then .ext2 else .idle) (if r.val < 20 then r + 1 else 0) := by
  have : seqStep (s.midPerm v .ext2 r) =
      { (s.midPerm v .ext2 r).setStateVec
          (roundF (s.midPerm v .ext2 r).rc r (s.midPerm v .ext2 r).stateVec) with
        phase := if r.val < 20 then .ext2 else .idle, rnd := if r.val < 20 then r + 1 else 0 } := rfl
  rw [this, midPerm_again, midPerm_rc, midPerm_stateVec]

/-! ### Element 0 -/

theorem stateVec_setReg_zero (s : State) (x : Fp) :
    (s.setReg 0 (reduced x)).stateVec = fun i => if i = 0 then x else s.stateVec i := by
  funext i
  by_cases h : i = 0
  · subst h
    simp only [State.stateVec, if_true]
    exact (canon_setReg_same s 0 (reduced x)).trans (toFp_val_self x)
  · simp only [h, if_false, State.stateVec]
    refine canon_setReg_other s _ fun e => h (Fin.ext ?_)
    have := congrArg Fin.val e
    exact this

theorem setReg_zero_setStateVec (s : State) (r : FieldReg) (v : StateVec) :
    (s.setReg 0 r).setStateVec v = s.setStateVec v := by
  refine State.ext_reg (fun j => ?_) (by constructor <;> simp)
  simp only [reg_setStateVec]
  split
  · rfl
  · next h => exact reg_setReg_other s r fun e => h (by subst e; decide)

end Sys2Proof.Machine
end

