-- ==== Sys2Proof/Laws/Step.lean ====
section
/-! SUPPORT. What a step does, by the event at the head of the host's list, and what a bus write can do. -/

namespace Sys2Proof.Machine

theorem step_idle {s : State} (h : s.pending = []) : step s = .next s := by
  simp [step, serveNext, h]

theorem step_event {s : State} {e : BusEvent} {rest : List BusEvent} (h : s.pending = e :: rest) :
    step s = serve e (takeEvent rest s) := by
  simp [step, serveNext, h]

theorem step_resetPin {s : State} {b : Bool} {rest : List BusEvent} (h : s.pending = .resetPin b :: rest) :
    step s = .next (driveReset b (takeEvent rest s)) := by
  rw [step_event h, serve]

theorem step_in_reset {s : State} {e : BusEvent} {rest : List BusEvent} (h : s.pending = e :: rest)
    (line : s.resetLine = true) (access : ∀ b, e ≠ .resetPin b) : step s = .next (takeEvent rest s) := by
  rw [step_event h]
  cases e with
  | resetPin b => exact absurd rfl (access b)
  | read off size => simp [serve, line]
  | write off data => simp [serve, line]

theorem step_read {s : State} {off : BitVec 12} {size : Nat} {rest : List BusEvent}
    (h : s.pending = .read off size :: rest) (line : s.resetLine = false) :
    step s = .next (busRead off size (takeEvent rest s)) := by
  rw [step_event h]
  simp [serve, line]

theorem step_write {s : State} {off : BitVec 12} {data : List Byte} {rest : List BusEvent}
    (h : s.pending = .write off data :: rest) (line : s.resetLine = false) :
    step s = busWrite off data (takeEvent rest s) := by
  rw [step_event h]
  simp [serve, line]

/-- Everything a bus write can do: refuse the access, run a command, reject a word, reset, write a field register, or
nothing. -/
theorem busWrite_cases (off : BitVec 12) (data : List Byte) (s : State) :
    busWrite off data s = .next (raise .busAccess (accessInfo true off) s) ∨
    (∃ w i, s.fatal = false ∧ decodeWord w = .ok i ∧ busWrite off data s = exec i s) ∨
    (∃ w reason, s.fatal = false ∧ decodeWord w = .error reason ∧
      busWrite off data s = .next (raise .illegalCmd w s)) ∨
    busWrite off data s = .next (resetEngine s) ∨
    (∃ (i : FReg) (w : Word), s.fatal = false ∧ windowAt off = some (.f i) ∧ wordOfBytes data = some w ∧
      busWrite off data s = .next (s.setReg i ⟨w.toNat, 32⟩)) ∨
    busWrite off data s = .next s := by
  unfold busWrite
  split
  · next r w hw =>
    have hr : ∀ q, (windowAt off).filter WindowReg.writable = some q → windowAt off = some q := fun q h => by
      rcases Option.filter_eq_some_iff.1 h with ⟨h, -⟩
      exact h
    have hl : (windowAt off).filter WindowReg.writable = some r ∧ wordOfBytes data = some w := by
      unfold legalWrite at hw
      split at hw
      · simp only [Option.some.injEq, Prod.mk.injEq] at hw
        obtain ⟨rfl, rfl⟩ := hw
        exact ⟨‹_›, ‹_›⟩
      · cases hw
    cases r with
    | cmd =>
      by_cases hf : s.fatal = true
      · simp [writeWord, writeCmd, hf]
      · rw [Bool.not_eq_true] at hf
        cases hd : decodeWord w with
        | ok i => exact .inr (.inl ⟨w, i, hf, hd, by simp [writeWord, writeCmd, hf, hd]⟩)
        | error reason => exact .inr (.inr (.inl ⟨w, reason, hf, hd, by simp [writeWord, writeCmd, hf, hd]⟩))
    | ctrl =>
      by_cases hb : w.toNat % 2 = 1
      · simp [writeWord, writeCtrl, hb]
      · simp [writeWord, writeCtrl, hb]
    | f i =>
      by_cases hf : s.fatal = true
      · simp [writeWord, writeFieldReg, hf]
      · rw [Bool.not_eq_true] at hf
        exact .inr (.inr (.inr (.inr (.inl ⟨i, w, hf, hr _ hl.1, hl.2, by simp [writeWord, writeFieldReg, hf]⟩))))
    | status => simp [writeWord]
    | err => simp [writeWord]
    | errInfo => simp [writeWord]
    | cfg => simp [writeWord]
    | fbw i => simp [writeWord]
    | cromw k => simp [writeWord]
  · exact .inl rfl

/-- A read changes the error fields and the reply at most. -/
theorem busRead_keeps (off : BitVec 12) (size : Nat) (s : State) :
    (busRead off size s).regs = s.regs ∧ (busRead off size s).phase = s.phase ∧ (busRead off size s).rnd = s.rnd ∧
      (busRead off size s).rc = s.rc ∧ (busRead off size s).resetLine = s.resetLine ∧
      (busRead off size s).pending = s.pending := by
  unfold busRead
  split
  · exact ⟨rfl, rfl, rfl, rfl, rfl, rfl⟩
  · have := raise_keeps .busAccess (accessInfo false off) s
    exact ⟨this.1, this.2.1, this.2.2.1, this.2.2.2.1, this.2.2.2.2.1, this.2.2.2.2.2.1⟩

theorem windowAt_ctrl {off : BitVec 12} (h : windowAt off = some .ctrl) : off = 0x014 := by
  unfold windowAt at h
  simp only at h
  repeat' split at h
  all_goals cases h
  exact BitVec.eq_of_toNat_eq ‹_›

/-- Bytes that make a word are that word's lanes. -/
theorem wordBytes_of_wordOfBytes {d : List Byte} {w : Word} (h : wordOfBytes d = some w) : d = wordBytes w := by
  unfold wordOfBytes at h
  split at h
  · next b0 b1 b2 b3 =>
    injection h with h
    subst h
    have h0 := b0.isLt
    have h1 := b1.isLt
    have h2 := b2.isLt
    have h3 := b3.isLt
    simp only [wordBytes, List.cons.injEq, and_true]
    refine ⟨?_, ?_, ?_, ?_⟩ <;> apply BitVec.eq_of_toNat_eq <;> simp only [BitVec.toNat_ofNat] <;> omega
  · cases h

theorem legalWrite_some {off : BitVec 12} {d : List Byte} {r : WindowReg} {w : Word}
    (h : legalWrite off d = some (r, w)) :
    windowAt off = some r ∧ WindowReg.writable r = true ∧ wordOfBytes d = some w := by
  unfold legalWrite at h
  split at h
  · next q v hq hv =>
    simp only [Option.some.injEq, Prod.mk.injEq] at h
    obtain ⟨rfl, rfl⟩ := h
    rw [Option.filter_eq_some_iff] at hq
    exact ⟨hq.1, hq.2, hv⟩
  · cases h

/-- What serving one event can leave. -/
inductive Served (s : State) (e : BusEvent) (u : State) : State → Prop where
  /-- the event had no effect -/
  | nothing : Served s e u u
  /-- the reset input was driven -/
  | pin (b : Bool) (event : e = .resetPin b) : Served s e u (driveReset b u)
  /-- a read was answered -/
  | read (off : BitVec 12) (size : Nat) (event : e = .read off size) (line : s.resetLine = false) :
    Served s e u (busRead off size u)
  /-- a write was illegal -/
  | badWrite (off : BitVec 12) (d : List Byte) (event : e = .write off d) (illegal : legalWrite off d = none) :
    Served s e u (raise .busAccess (accessInfo true off) u)
  /-- a command ran -/
  | command (w : Word) (i : Instr) (t : State) (alive : s.fatal = false) (decoded : decodeWord w = .ok i)
    (ran : exec i u = .next t) : Served s e u t
  /-- a word spelled no command -/
  | badWord (w : Word) (reason : Reject) (alive : s.fatal = false) (rejected : decodeWord w = .error reason) :
    Served s e u (raise .illegalCmd w u)
  /-- software reset the engine -/
  | softReset (w : Word) (event : e = .write 0x014 (wordBytes w)) (bit : w.getLsbD 0 = true)
    (line : s.resetLine = false) : Served s e u (resetEngine u)
  /-- a field register was written -/
  | fieldWrite (off : BitVec 12) (i : FReg) (w : Word) (event : e = .write off (wordBytes w))
    (place : windowAt off = some (.f i)) (alive : s.fatal = false) : Served s e u (u.setReg i ⟨w.toNat, 32⟩)

/-- Everything a step can do: nothing with no event pending, else serve the oldest. -/
theorem step_cases {s t : State} (h : step s = .next t) :
    (s.pending = [] ∧ t = s) ∨ ∃ e rest, s.pending = e :: rest ∧ Served s e (takeEvent rest s) t := by
  cases hp : s.pending with
  | nil =>
    rw [step_idle hp] at h
    injection h with h
    exact .inl ⟨rfl, h.symm⟩
  | cons e rest =>
    refine .inr ⟨e, rest, rfl, ?_⟩
    rw [step_event hp] at h
    cases e with
    | resetPin b =>
      injection h with h
      subst h
      exact .pin b rfl
    | read off size =>
      simp only [serve] at h
      injection h with h
      subst h
      split
      · exact .nothing
      · next hl => exact .read off size rfl (by simpa [takeEvent] using hl)
    | write off d =>
      simp only [serve] at h
      split at h
      · injection h with h
        subst h
        exact .nothing
      · next hl =>
        have line : s.resetLine = false := by simpa [takeEvent] using hl
        unfold busWrite at h
        split at h
        · next r w hw =>
          obtain ⟨place, writable, word⟩ := legalWrite_some hw
          have bytes := wordBytes_of_wordOfBytes word
          cases r with
          | cmd =>
            simp only [writeWord, writeCmd] at h
            split at h
            · injection h with h
              subst h
              exact .nothing
            · next hf =>
              have alive : s.fatal = false := by simpa [takeEvent] using hf
              split at h
              · next i hd => exact .command w i t alive hd h
              · next reason hd =>
                injection h with h
                subst h
                exact .badWord w reason alive hd
          | ctrl =>
            simp only [writeWord, writeCtrl] at h
            injection h with h
            subst h
            split
            · next hb =>
              have bit : w.getLsbD 0 = true := by simpa [BitVec.getLsbD, Nat.testBit_zero] using hb
              exact .softReset w (by rw [windowAt_ctrl place, bytes]) bit line
            · exact .nothing
          | f i =>
            simp only [writeWord, writeFieldReg] at h
            injection h with h
            subst h
            split
            · exact .nothing
            · next hf => exact .fieldWrite off i w (by rw [bytes]) place (by simpa [takeEvent] using hf)
          | status => cases writable
          | err => cases writable
          | errInfo => cases writable
          | cfg => cases writable
          | fbw i => cases writable
          | cromw k => cases writable
        · next hw =>
          injection h with h
          subst h
          exact .badWrite off d rfl hw

end Sys2Proof.Machine
end

