-- ==== Sys2Proof/Tests/Slice0.lean ====
section
/-! SUPPORT. The model's own tests. Expected values are those of `95_test_vectors.md` (named V-... or P...); the
witnesses at the end meet the hypotheses of the statements of Obligations.lean, clause by clause. -/

namespace Sys2Proof.Tests

set_option Elab.async false

open Sys2Proof Sys2Proof.Machine

/-! ### Small states -/

/-- A row of `RC_TEST`: `16 * r + i + 1` (`95_test_vectors.md` section 2). -/
def rcTestRow (r : Nat) : Vector Word 16 := Vector.ofFn fun i => BitVec.ofNat 32 (16 * r + i.val + 1)

/-- `RC_TEST` (`95_test_vectors.md` section 2). -/
def rcTest : RcTable := Vector.ofFn fun r => rcTestRow r.val

/-- `RC_BAD` (`95_test_vectors.md` section 2): entries 37 and 112 are out of range. -/
def rcBad : RcTable :=
  (rcTest.set 2 ((rcTestRow 2).set 5 0x78000001)).set 7 ((rcTestRow 7).set 0 0xFFFFFFFF)

/-- A well-formed table's engine with canonical zero everywhere. -/
def quiet : State where
  regs := Vector.replicate 32 ⟨0, 31⟩
  fatal := false
  err := .noError
  errInfo := 0
  phase := .idle
  rnd := 0
  rc := rcTest
  resetLine := false
  pending := []
  reply := none

/-- `quiet` after bus writes to field registers. -/
def load (ws : List (FReg × Word)) : State := ws.foldl (fun s p => s.setReg p.1 ⟨p.2.toNat, 32⟩) quiet

/-- `quiet` with one word in each of `S[0..15]`. -/
def loadState (f : Fin 16 → Nat) : State := load ((List.finRange 16).map fun i => (sReg i, BitVec.ofNat 32 (f i)))

/-- `quiet` with one pair in a register. -/
def holding (i : FReg) (val bw : Nat) : State := quiet.setReg i ⟨val, bw⟩

/-- `quiet` dead after an illegal read at 0x018. -/
def dead : State := { load [(0, 5)] with fatal := true, err := .busAccess, errInfo := 0x018 }

/-- `s` with these events still to serve. -/
def facing (es : List BusEvent) (s : State) : State := { s with pending := es }

/-- The next state, or the state itself. -/
def after (r : Result) (s : State) : State :=
  match r with
  | .next t => t
  | .fault _ => s
  | .refused _ => s

/-- What a command leaves. -/
def done (i : Instr) (s : State) : State := after (exec i s) s

/-- What serving one event leaves. -/
def served (e : BusEvent) (s : State) : State := after (step (facing [e] s)) s

/-- The values of `S[0..15]`. -/
def values (s : State) : List Nat := (List.finRange 16).map fun i => (s.reg (sReg i)).val

/-- The widths of `S[0..15]`. -/
def allWidths (s : State) (w : Nat) : Bool := (List.finRange 16).all fun i => (s.reg (sReg i)).bw == w

/-- The words of FATAL, ERR and ERRINFO. -/
def errors (s : State) : Bool × BitVec 4 × Word := (s.fatal, s.err.code, s.errInfo)

/-- A bus write of a word. -/
def wr (off : BitVec 12) (w : Word) : BusEvent := .write off (wordBytes w)

/-- A bus read of a word. -/
def rd (off : BitVec 12) : BusEvent := .read off 4

/-! ### WellFormed refuses ill-formed terms, one for each check (`30_encoding.md` R93) -/

theorem test_wf_refuses_fldc_cidx : (Instr.fldc 19 356).wf = false ∧ (Instr.fldc 19 355).wf = true := by decide
theorem test_wf_refuses_fmulc_cidx : (Instr.fmulc 17 16 511).wf = false ∧ (Instr.fmulc 17 16 355).wf = true := by
  decide
theorem test_wf_refuses_arcf_row : (Instr.arcf 21).wf = false ∧ (Instr.arcf 20).wf = true := by decide
theorem test_wf_refuses_arcp_row : (Instr.arcp 31).wf = false ∧ (Instr.arcp 20).wf = true := by decide
theorem test_wf_refuses_rndf_row : (Instr.rndf 21).wf = false ∧ (Instr.rndf 20).wf = true := by decide
theorem test_wf_refuses_rndp_row : (Instr.rndp 21).wf = false ∧ (Instr.rndp 20).wf = true := by decide

/-! ### Decoding: words written out from `30_encoding.md` R81 to R89 (fields in binary), V-ENC -/

/-- op 000001, rd 10011 (T3), zeros, cidx 101100000 (352). -/
theorem test_decode_fldc : decodeWord 0b00000110011000000000000101100000 = .ok (.fldc 19 352) := by decide
/-- op 000010, rd 10010, ra 10000, rb 10001, zeros. -/
theorem test_decode_fadd : decodeWord 0b00001010010100001000100000000000 = .ok (.fadd 18 16 17) := by decide
/-- op 000011, rd 10010, ra 01111, zeros, cidx 101011111 (351). -/
theorem test_decode_fmulc : decodeWord 0b00001110010011110000000101011111 = .ok (.fmulc 18 15 351) := by decide
/-- op 000100, rd 10100, ra 10011, rb 10000, zeros. -/
theorem test_decode_fmul : decodeWord 0b00010010100100111000000000000000 = .ok (.fmul 20 19 16) := by decide
/-- op 000101, rd 10100, ra 00011, zeros. -/
theorem test_decode_fred : decodeWord 0b00010110100000110000000000000000 = .ok (.fred 20 3) := by decide
/-- op 001000, rd 10100, ra 10000, zeros. -/
theorem test_decode_sbox : decodeWord 0b00100010100100000000000000000000 = .ok (.sbox 20 16) := by decide
/-- op 001001, zeros. -/
theorem test_decode_sboxf : decodeWord 0b00100100000000000000000000000000 = .ok .sboxf := by decide
/-- op 001010, zeros. -/
theorem test_decode_sboxp : decodeWord 0b00101000000000000000000000000000 = .ok .sboxp := by decide
/-- op 001100, zeros, r 10100 (20). -/
theorem test_decode_arcf : decodeWord 0b00110000000000000000000000010100 = .ok (.arcf 20) := by decide
/-- op 001101, zeros, r 10000 (16). -/
theorem test_decode_arcp : decodeWord 0b00110100000000000000000000010000 = .ok (.arcp 16) := by decide
/-- op 010000, zeros. -/
theorem test_decode_mext : decodeWord 0b01000000000000000000000000000000 = .ok .mext := by decide
/-- op 010001, zeros. -/
theorem test_decode_mint : decodeWord 0b01000100000000000000000000000000 = .ok .mint := by decide
/-- op 010100, zeros, r 10001 (17). -/
theorem test_decode_rndf : decodeWord 0b01010000000000000000000000010001 = .ok (.rndf 17) := by decide
/-- op 010101, zeros, r 00100 (4). -/
theorem test_decode_rndp : decodeWord 0b01010100000000000000000000000100 = .ok (.rndp 4) := by decide
/-- op 011000, zeros. -/
theorem test_decode_perm : decodeWord 0b01100000000000000000000000000000 = .ok .perm := by decide

/-- V-ILL-1 to V-ILL-21: words that spell no command. -/
theorem test_illegal_words :
    ([0x00000000, 0xFFFFFFFF, 0x60000001, 0x40000800, 0x24200000, 0x50000015, 0x5000001F, 0x54000020, 0x30000100,
      0x06600164, 0x066001FF, 0x06610160, 0x0E300164, 0x0E300200, 0x0A508801, 0x0A508C00, 0x16100001, 0x18000000,
      0x1C000000, 0x2C000000, 0x64000000] : List Word).all (fun w => (decodeWord w).toOption.isNone) = true := by
  decide

/-- V-ENC-8, V-ENC-4, V-ENC-6: the encoder against the printed words. -/
theorem test_encode_printed_words : encode (.fmulc 17 16 336) = 0x0E300150 ∧ encode (.fldc 31 355) = 0x07E00163 ∧
    encode (.fadd 31 31 31) = 0x0BFFF800 ∧ encode (.rndp 16) = 0x54000010 := by decide

/-- A word goes over the bus lowest byte first (`20_memory.md` R65). -/
theorem test_word_lanes : wordBytes 0x12308000 = [0x00, 0x80, 0x30, 0x12] ∧
    wordOfBytes [0x00, 0x80, 0x30, 0x12] = some 0x12308000 ∧ wordOfBytes [0x00] = none := by decide

/-- The table's word reaches the decoder. -/
theorem test_decode_table_word : decodeTableWord 32 0x22900000 = some (.sbox 20 16) ∧
    decodeTableWord 32 0x60000001 = none := by decide

/-- The first step after reset runs the placed command, whatever the open table holds. -/
theorem test_first_step_runs : ∃ t, step (State.reset.withFetchWord 32 0x0A508800) = .next t ∧
    t.reg 18 = ⟨0, 32⟩ := ⟨_, rfl, by decide +kernel⟩

/-! ### Field unit -/

/-- V-FU-19, and V-FU-21 (a table entry). -/
theorem test_fldc : (done (.fldc 19 352) quiet).reg 19 = ⟨943718400, 31⟩ ∧
    (done (.fldc 19 83) quiet).reg 19 = ⟨84, 31⟩ := by decide +kernel
/-- V-FU-22: the width of the old contents is gone. -/
theorem test_fldc_zero : (done (.fldc 19 353) (load [(19, 0x63)])).reg 19 = ⟨0, 31⟩ := by decide +kernel
/-- V-FU-1. -/
theorem test_fadd : (done (.fadd 18 16 17) (load [(16, 0x78000000), (17, 5)])).reg 18 = ⟨2013265925, 33⟩ := by
  decide +kernel
/-- V-FU-3 (destination and both sources the same), V-FU-4 (different widths). -/
theorem test_fadd_in_place : (done (.fadd 16 16 16) (load [(16, 0xFFFFFFFF)])).reg 16 = ⟨8589934590, 33⟩ ∧
    (done (.fadd 17 16 21) (load [(16, 0xFFFFFFFF)])).reg 17 = ⟨4294967295, 33⟩ := by decide +kernel
/-- V-FU-5, V-FU-11 (a table entry). -/
theorem test_fmulc : (done (.fmulc 17 16 336) (load [(16, 3)])).reg 17 = ⟨6039797757, 63⟩ ∧
    (done (.fmulc 17 16 83) (load [(16, 7)])).reg 17 = ⟨588, 39⟩ := by decide +kernel
/-- V-FU-6, V-FU-7, V-FU-8: `bitlen` of 0, 1 and 2. -/
theorem test_fmulc_widths : (done (.fmulc 17 16 353) (load [(16, 7)])).reg 17 = ⟨0, 32⟩ ∧
    (done (.fmulc 17 16 354) (load [(16, 7)])).reg 17 = ⟨7, 33⟩ ∧
    (done (.fmulc 17 16 355) (load [(16, 7)])).reg 17 = ⟨14, 34⟩ := by decide +kernel
/-- V-FU-13, V-FU-14 (a canonical zero operand). -/
theorem test_fmul : (done (.fmul 18 16 17) (load [(16, 0xFFFFFFFF), (17, 0xFFFFFFFF)])).reg 18 =
      ⟨18446744065119617025, 64⟩ ∧
    (done (.fmul 17 16 25) (load [(16, 0x3039)])).reg 17 = ⟨0, 63⟩ := by decide +kernel
/-- V-OVF-1 steps 3 and 4: width 256 is held, width 512 raises and writes nothing. -/
theorem test_fmul_overflow :
    (done (.fmul 16 16 16) (holding 16 (4294967295 ^ 4) 128)).reg 16 = ⟨4294967295 ^ 8, 256⟩ ∧
    errors (done (.fmul 16 16 16) (holding 16 (4294967295 ^ 8) 256)) = (true, 2, 0x12108000) ∧
    (done (.fmul 16 16 16) (holding 16 (4294967295 ^ 8) 256)).reg 16 = ⟨4294967295 ^ 8, 256⟩ := by decide +kernel
/-- V-FU-15, V-FU-16, V-FU-18. -/
theorem test_fred : (done (.fred 16 16) (load [(16, 0xFFFFFFFF)])).reg 16 = ⟨268435453, 31⟩ ∧
    (done (.fred 17 16) (load [(16, 0x78000001)])).reg 17 = ⟨0, 31⟩ ∧
    (done (.fred 20 3) (load [(3, 0x80000000)])).reg 20 = ⟨134217727, 31⟩ := by decide +kernel

/-! ### S-box -/

/-- V-SB-14 (the source keeps its pair), V-SB-7, V-SB-8. -/
theorem test_sbox : (done (.sbox 20 16) (load [(16, 0xFFFFFFFF)])).reg 20 = ⟨348262948, 31⟩ ∧
    (done (.sbox 20 16) (load [(16, 0xFFFFFFFF)])).reg 16 = ⟨4294967295, 32⟩ ∧
    (done (.sbox 20 16) (load [(16, 0x00BC614E)])).reg 20 = ⟨184377507, 31⟩ ∧
    (done (.sbox 20 16) (load [(16, 0x78000000)])).reg 20 = ⟨2013265920, 31⟩ := by decide +kernel
/-- V-SB-15: the widest input. -/
theorem test_sbox_widest : (done (.sbox 16 16) (holding 16 (4294967295 ^ 8) 256)).reg 16 = ⟨1788472612, 31⟩ := by
  decide +kernel
/-- V-SB-16. -/
theorem test_sboxf : values (done .sboxf (loadState fun i => i.val + 1)) =
      [1, 128, 2187, 16384, 78125, 279936, 823543, 2097152, 4782969, 10000000, 19487171, 35831808, 62748517,
        105413504, 170859375, 268435456] ∧
    allWidths (done .sboxf (loadState fun i => i.val + 1)) 31 = true := by decide +kernel
/-- V-SB-17. -/
theorem test_sboxp : (done .sboxp (loadState fun i => i.val + 2)).reg 0 = ⟨128, 31⟩ ∧
    (done .sboxp (loadState fun i => i.val + 2)).reg 1 = ⟨3, 32⟩ := by decide +kernel

/-! ### Linear layers -/

/-- V-EXT-4: every position, and the reading of D10. -/
theorem test_mext : values (done .mext (loadState fun i => i.val)) =
    [208, 223, 238, 213, 236, 251, 266, 241, 264, 279, 294, 269, 292, 307, 322, 297] := by decide +kernel
/-- V-EXT-9: non-canonical inputs; `T` keeps what it held. -/
theorem test_mext_reduces : values (done .mext (loadState fun _ => 0xFFFFFFFF)) = List.replicate 16 1342177171 ∧
    (done .mext (holding 16 7 40)).reg 16 = ⟨7, 40⟩ := by decide +kernel
/-- V-INT-5. -/
theorem test_mint : values (done .mint (loadState fun i => i.val)) =
    [503316424, 1447034824, 251658182, 1761607619, 503316409, 1509949347, 503316334, 503316214, 503315944, 503315344,
      503314024, 503311144, 503304904, 503291464, 503262664, 503086024] := by decide +kernel
/-- V-INT-6: non-canonical inputs. -/
theorem test_mint_reduces :
    values (done .mint (loadState fun i => if i.val = 15 then 0x12345678 else 0x11111111 * (i.val + 1))) =
      [1257731972, 469202820, 1693939589, 1735882630, 1031239560, 58161037, 997685146, 595031990, 1266120693,
        1534556287, 1937209772, 460815415, 997687731, 997690739, 863479428, 523460766] := by decide +kernel

/-! ### Rounds and the permutation, table `RC_TEST` -/

/-- V-RND-3, V-RND-2. -/
theorem test_arcf : values (done (.arcf 0) (loadState fun _ => 2013265920)) = List.range 16 ∧
    values (done (.arcf 20) quiet) = (List.range 16).map (· + 321) := by decide +kernel
/-- V-RND-6: the other elements keep `(9, 32)`. -/
theorem test_arcp :
    (done (.arcp 4) (loadState fun i => if i.val = 0 then 2013265856 else 9)).reg 0 = ⟨0, 31⟩ ∧
    (done (.arcp 4) (loadState fun i => if i.val = 0 then 2013265856 else 9)).reg 15 = ⟨9, 32⟩ := by decide +kernel
/-- V-RND-10. -/
theorem test_rndf : values (done (.rndf 17) (loadState fun i => i.val)) =
    [1583821232, 483991372, 303135057, 42585202, 1757930031, 1782995914, 1132346842, 107775097, 821936523, 555396332,
      409229318, 1012316591, 1879810592, 1705324086, 1792862720, 565023968] := by decide +kernel
/-- V-RND-11. -/
theorem test_rndp : values (done (.rndp 16) (loadState fun i => i.val)) =
    [1831519726, 118831522, 936720801, 433404317, 1188379028, 181746045, 1188378953, 1188378833, 1188378563,
      1188377963, 1188376643, 1188373763, 1188367523, 1188354083, 1188325283, 1188148643] := by decide +kernel
/-- V-PERM-3. -/
theorem test_perm : values (done .perm (loadState fun i => i.val)) =
    [1482883071, 1009487625, 1674735958, 223324798, 1638717502, 1718101979, 845113592, 1469295917, 972405746,
      1218132912, 714299186, 773171071, 1899594647, 1490691906, 1031031114, 1070563224] := by decide +kernel

/-! ### The window, errors and reset -/

/-- V-BUS-27: the read gives the element, the register keeps its pair. -/
theorem test_read_element : (served (rd 0x0C0) (load [(16, 0xFFFFFFFF)])).reply = some (wordBytes 268435453) ∧
    (served (rd 0x0C0) (load [(16, 0xFFFFFFFF)])).reg 16 = ⟨4294967295, 32⟩ ∧
    (served (rd 0x140) (load [(16, 0xFFFFFFFF)])).reply = some (wordBytes 32) := by decide +kernel
/-- P5, P6: `CFG` and `CROMW[352]`; the last `CROMW` register. -/
theorem test_read_constants : (served (rd 0x010) dead).reply = some (wordBytes 0x0100D810) ∧
    (served (rd 0xD80) dead).reply = some (wordBytes 0x38400000) ∧
    (served (rd 0xD8C) dead).reply = some (wordBytes 2) := by decide +kernel
/-- V-BUS-21, V-BUS-22, V-BUS-23: unmapped offsets. -/
theorem test_unmapped : errors (served (rd 0x180) quiet) = (true, 4, 0x180) ∧
    errors (served (rd 0xD90) quiet) = (true, 4, 0xD90) ∧
    (served (rd 0xFFC) quiet).reply = some (wordBytes 0xFFFFFFFF) := by decide +kernel
/-- V-BUS-24, V-BUS-25, V-BUS-26: misaligned, narrow, wide. -/
theorem test_access_shape : errors (served (rd 0x082) quiet) = (true, 4, 0x82) ∧
    errors (served (.write 0x080 [1]) quiet) = (true, 4, 0x80000080) ∧
    (served (.write 0x080 [1]) quiet).reg 0 = ⟨0, 31⟩ ∧
    (served (.read 0x080 8) quiet).reply = some (List.replicate 8 0xFF) := by decide +kernel
/-- V-BUS-28: the first error sticks. -/
theorem test_first_error_sticks :
    errors (served (wr 0x000 0x00000000) quiet) = (true, 3, 0) ∧
    errors (served (wr 0x004 1) (served (rd 0x018) (served (wr 0x000 0x00000000) quiet))) = (true, 3, 0) := by
  decide +kernel
/-- V-BUS-29: the access is checked before the word. -/
theorem test_priority : errors (served (.write 0x000 [0]) quiet) = (true, 4, 0x80000000) := by decide +kernel
/-- P5: a dead engine shows and does nothing. -/
theorem test_dead_engine : (served (rd 0x080) dead).reply = some (wordBytes 0xFFFFFFFF) ∧
    (served (rd 0x100) dead).reply = some (wordBytes 0xFFFFFFFF) ∧
    (served (wr 0x080 9) dead).reg 0 = ⟨5, 32⟩ ∧ errors (served (wr 0x000 0) dead) = (true, 4, 0x18) := by
  decide +kernel
/-- P7: SRST = 0 does nothing; bit 0 of 3 resets. -/
theorem test_soft_reset : errors (served (wr 0x014 0) dead) = (true, 4, 0x18) ∧
    errors (served (wr 0x014 3) dead) = (false, 0, 0) ∧ (served (wr 0x014 3) dead).reg 0 = ⟨0, 31⟩ := by
  decide +kernel
/-- P6: the reset check on `RC_BAD`, and on `RC_TEST`. -/
theorem test_reset_check : errors (State.resetWith rcBad) = (true, 1, 37) ∧
    errors (State.resetWith rcTest) = (false, 0, 0) := by decide +kernel
/-- The reset input: no access is answered while it is asserted; releasing it resets (R240). -/
theorem test_reset_pin :
    (served (rd 0x004) { dead with resetLine := true }).reply = none ∧
    errors (served (.resetPin false) { dead with resetLine := true }) = (false, 0, 0) := by decide +kernel

/-! ### Witnesses: states and operands that meet the hypotheses of each statement -/

theorem witness_DecodeEncodeRoundTrip : (Instr.fmulc 31 31 355).wf = true ∧
    decodeWord 0x0FFF0163 = .ok (.fmulc 31 31 355) ∧ (Instr.rndp 20).wf = true := by decide
theorem witness_DecodeFollowsOpcodeMap : (∃ i, decodeWord 0x07E00163 = .ok i ∧ i.mnemonic = "FLDC") ∧
    (∃ row ∈ opcodeMap, row.mnemonic = "FLDC" ∧ row.spells 0x07E00163) :=
  ⟨⟨.fldc 31 355, by decide, rfl⟩, ⟨_, List.mem_cons_self, rfl, by decide, by change bitField _ 0 9 ≤ 355; decide⟩⟩
theorem witness_IllegalWordRaisesIllegalCmd : ∃ (s : State) (w : Word) (rest : List BusEvent) (reason : Reject),
    s.pending = .write 0x000 (wordBytes w) :: rest ∧ s.resetLine = false ∧ s.fatal = false ∧
      decodeWord w = .error reason :=
  ⟨facing [wr 0x000 0x50000015] quiet, 0x50000015, [], .rowOutOfRange, rfl, rfl, rfl, by decide⟩
theorem witness_StepRunsDecodedCommand_running : ∃ (s : State) (w : Word) (rest : List BusEvent) (i : Instr),
    s.pending = .write 0x000 (wordBytes w) :: rest ∧ s.resetLine = false ∧ decodeWord w = .ok i ∧ s.fatal = false :=
  ⟨facing [wr 0x000 0x60000000] quiet, 0x60000000, [], .perm, rfl, rfl, by decide, rfl⟩
theorem witness_StepRunsDecodedCommand_fatal : ∃ (s : State) (w : Word) (rest : List BusEvent) (i : Instr),
    s.pending = .write 0x000 (wordBytes w) :: rest ∧ s.resetLine = false ∧ decodeWord w = .ok i ∧ s.fatal = true :=
  ⟨facing [wr 0x000 0x60000000] dead, 0x60000000, [], .perm, rfl, rfl, by decide, rfl⟩
theorem witness_CromHoldsTableAndConstants : cromAt rcTest 335 = some 336 ∧ cromAt rcTest 350 = some 8192 ∧
    cromAt rcTest 356 = none ∧ rcTest.WellFormed ∧ ¬ rcBad.WellFormed := by decide +kernel
theorem witness_BitlenIsLeastBound : (2013265919 : Nat) < 2 ^ 31 ∧ (0 : Nat) < 2 ^ 0 := by decide
theorem witness_FldcLoadsConstant : (355 : CIdx).val ≤ 355 ∧ (0 : CIdx).val ≤ 355 := by decide
theorem witness_FaddWritesExactSum_fits : max ((holding 16 1 255).reg 16).bw ((holding 16 1 255).reg 16).bw + 1 ≤ 256 := by
  decide +kernel
theorem witness_FaddWritesExactSum_overflows :
    256 < max ((holding 16 1 256).reg 16).bw ((holding 16 1 256).reg 0).bw + 1 ∧ (holding 16 1 256).fatal = false := by
  decide +kernel
theorem witness_FmulcWritesExactProduct_fits : (336 : CIdx).val ≤ 355 ∧ cromAt (holding 16 1 225).rc 336 = some 2013265919 ∧
    ((holding 16 1 225).reg 16).bw + bitlen 2013265919 ≤ 256 := by decide +kernel
theorem witness_FmulcWritesExactProduct_overflows : cromAt (holding 16 1 226).rc 336 = some 2013265919 ∧
    256 < ((holding 16 1 226).reg 16).bw + bitlen 2013265919 ∧ (holding 16 1 226).fatal = false := by decide +kernel
theorem witness_FmulWritesExactProduct_fits : ((holding 16 1 128).reg 16).bw + ((holding 16 1 128).reg 16).bw ≤ 256 := by
  decide +kernel
theorem witness_FmulWritesExactProduct_overflows :
    256 < ((holding 16 1 226).reg 16).bw + ((holding 16 1 226).reg 0).bw ∧ (holding 16 1 226).fatal = false := by
  decide +kernel
theorem witness_FredWritesCanonicalValue : (quiet.reg 3).Canonical := by
  constructor <;> decide +kernel
theorem witness_FieldUnitDenotesFieldOperation : ∃ s : State, s.fatal = false ∧
    (∃ t, t.fatal = false ∧ exec (.fldc 19 352) s = .next t ∧ cromAt s.rc 352 = some 943718400) ∧
    (∃ t, t.fatal = false ∧ exec (.fadd 18 16 17) s = .next t) ∧
    (∃ t, t.fatal = false ∧ exec (.fmulc 18 16 355) s = .next t ∧ cromAt s.rc 355 = some 2) ∧
    (∃ t, t.fatal = false ∧ exec (.fmul 18 16 17) s = .next t) ∧
    (∃ t, t.fatal = false ∧ exec (.fred 18 16) s = .next t) :=
  ⟨load [(16, 0x78000000)], by decide +kernel, ⟨_, by decide +kernel, rfl, by decide +kernel⟩,
    ⟨_, by decide +kernel, rfl⟩, ⟨_, by decide +kernel, rfl, by decide +kernel⟩, ⟨_, by decide +kernel, rfl⟩,
    ⟨_, by decide +kernel, rfl⟩⟩
theorem witness_TrackedWidthsIgnoreValues : ∃ s s' : State, s.SameWidths s' ∧ s.reg 16 ≠ s'.reg 16 ∧
    (∃ t, Sys2Proof.core.run 2 s = .next t) ∧ (∃ t', Sys2Proof.core.run 2 s' = .next t') := by
  refine ⟨facing [wr 0x080 7, rd 0x080] (load [(16, 3)]), facing [wr 0x080 9, rd 0x080] (load [(16, 4)]),
    ⟨by decide +kernel, rfl, rfl, rfl, rfl, rfl, rfl, rfl, ?_, rfl⟩, by decide +kernel, ⟨_, rfl⟩, ⟨_, rfl⟩⟩
  exact .cons ⟨rfl, rfl, .inr ⟨0, by decide⟩⟩ (.cons rfl .nil)
theorem witness_ValueOnlySeenModuloP : ∃ s s' : State, s.SameMeaning s' ∧ s.reg 16 ≠ s'.reg 16 ∧
    (∃ t, Sys2Proof.core.run 1 s = .next t) ∧ (∃ t', Sys2Proof.core.run 1 s' = .next t') :=
  ⟨facing [rd 0x0C0] (load [(16, 0)]), facing [rd 0x0C0] (load [(16, 0x78000001)]),
    ⟨by decide +kernel, by decide +kernel, ⟨rfl, rfl, rfl, rfl, rfl, rfl, rfl, rfl, rfl⟩⟩, by decide +kernel,
    ⟨_, rfl⟩, ⟨_, rfl⟩⟩
theorem quiet_inv : quiet.Inv where
  regsOk := by
    intro i
    have h : quiet.reg i = ⟨0, 31⟩ := by simp [quiet, State.reg]
    rw [h]
    exact ⟨by decide, by decide, by decide⟩
  errIffFatal := by decide +kernel
  errInfoFits := rfl
  sequencerIdle := by decide +kernel
  cfgIffMalformed := by decide +kernel
theorem witness_FredInsertionKeepsMeaning : ∃ (before later : List Instr) (s t : State), s.Inv ∧
    s.fatal = false ∧ (∀ i ∈ before ++ later, IsFieldUnit i ∧ i.wf = true) ∧
    execSeq (before ++ later) s = .next t ∧ t.fatal = false := by
  refine ⟨[.fldc 16 352], [.fmul 17 16 16], quiet, _, quiet_inv, rfl, ?_, rfl, by decide +kernel⟩
  intro i hi
  simp only [List.cons_append, List.nil_append, List.mem_cons, List.not_mem_nil, or_false] at hi
  obtain rfl | rfl := hi
  · exact ⟨trivial, by decide⟩
  · exact ⟨trivial, rfl⟩
theorem witness_SboxEqualsFieldUnitChain : ∃ s : State, s.fatal = false ∧ (s.reg (tReg 0)).bw < 256 :=
  ⟨holding 16 (2 ^ 254) 255, by decide +kernel, by decide +kernel⟩
theorem witness_ArcfAddsRow : (20 : RowField).val = (20 : Fin 21).val ∧ (0 : RowField).val = (0 : Fin 21).val := by
  decide
theorem witness_ArcpAddsToElementZero : (20 : RowField).val = (20 : Fin 21).val ∧ (16 : RowField).val = (16 : Fin 21).val := by
  decide
theorem witness_RndfIsArcfSboxfMext : (20 : RowField).val = (20 : Fin 21).val ∧ (4 : RowField).val = (4 : Fin 21).val := by
  decide
theorem witness_RndpIsArcpSboxpMint : (20 : RowField).val = (20 : Fin 21).val ∧ (0 : RowField).val = (0 : Fin 21).val := by
  decide
theorem witness_InternalLayerIsLinearAndDiffuses : ∃ (a b : StateVec) (k : Fin 16), a k ≠ b k ∧
    (∀ j, j ≠ k → a j = b j) :=
  ⟨fun _ => 0, fun i => if i = 15 then 1 else 0, 15, by decide, fun j h => (if_neg h).symm⟩
theorem witness_PermAppliesPermute_zero : ∃ s : State, (∀ (r : Fin 21) (k : Fin 16), s.rc[r][k] = 0) ∧
    s.stateVec = (fun _ => 0) :=
  ⟨{ quiet with rc := Vector.ofFn fun _ => Vector.ofFn fun _ => 0 }, by decide +kernel, by decide +kernel⟩
/-- Tables that agree on what `PERM` uses and differ elsewhere. -/
theorem witness_UnusedTableEntriesDoNotMatter : ∃ rc rc' : RcTable, rc ≠ rc' ∧
    ∀ (r : Fin 21) (i : Fin 16), UsedByPerm r i → rc[r][i] = rc'[r][i] := by
  refine ⟨rcTest, rcTest.set 4 ((rcTestRow 4).set 1 0), by decide +kernel, ?_⟩
  unfold UsedByPerm
  decide +kernel
theorem witness_CompositeWritesAreCanonical : (Instr.rndp 20).wf = true ∧ IsComposite (.rndp 20) ∧ IsComposite .perm :=
  ⟨by decide, id, id⟩
theorem witness_OnlyProducersOverflow : (Instr.fadd 16 16 16).wf = true ∧ (holding 16 1 256).fatal = false ∧
    Overflows (.fadd 16 16 16) (holding 16 1 256) ∧ ¬ Overflows (.fadd 16 16 16) (holding 16 1 255) := by
  refine ⟨rfl, by decide +kernel, ?_, ?_⟩ <;> unfold Overflows <;> decide +kernel
theorem witness_StepKeepsInvariant : ∃ s t : State, s.Inv ∧ step s = .next t ∧ t ≠ s := by
  refine ⟨facing [wr 0x080 7] quiet, _, ⟨?_, by decide +kernel, rfl, by decide +kernel, by decide +kernel⟩,
    rfl, by decide +kernel⟩
  exact quiet_inv.regsOk
theorem witness_ResetStateValues : rcTest.WellFormed ∧ ¬ rcBad.WellFormed := by decide +kernel
theorem witness_ResetCheckFindsLeastBadEntry : firstBad rcTest = none ∧ firstBad rcBad = some 37 ∧
    firstBad (rcTest.set 20 ((rcTestRow 20).set 15 0x78000001)) = some 335 ∧
    firstBad (rcTest.set 20 ((rcTestRow 20).set 15 0x78000000)) = none := by decide +kernel
theorem witness_SoftResetFromEveryState_set : ∃ (s : State) (w : Word) (rest : List BusEvent),
    s.pending = .write 0x014 (wordBytes w) :: rest ∧ s.resetLine = false ∧ w.getLsbD 0 = true :=
  ⟨facing [wr 0x014 3] dead, 3, [], rfl, rfl, by decide⟩
theorem witness_SoftResetFromEveryState_clear : ∃ (s : State) (w : Word) (rest : List BusEvent),
    s.pending = .write 0x014 (wordBytes w) :: rest ∧ s.resetLine = false ∧ w.getLsbD 0 = false :=
  ⟨facing [wr 0x014 0xFFFFFFFE] dead, 0xFFFFFFFE, [], rfl, rfl, by decide⟩
theorem witness_ResetPinHoldsAndResets :
    (∃ (s : State) (rest : List BusEvent), s.pending = .resetPin true :: rest) ∧
    (∃ (s : State) (rest : List BusEvent) (off : BitVec 12) (size : Nat),
      s.pending = .read off size :: rest ∧ s.resetLine = true) ∧
    (∃ (s : State) (rest : List BusEvent) (off : BitVec 12) (data : List Byte),
      s.pending = .write off data :: rest ∧ s.resetLine = true) ∧
    (∃ (s : State) (rest : List BusEvent), s.pending = .resetPin false :: rest ∧ s.resetLine = true) ∧
    (∃ (s : State) (rest : List BusEvent), s.pending = .resetPin false :: rest ∧ s.resetLine = false) :=
  ⟨⟨facing [.resetPin true] quiet, [], rfl⟩,
    ⟨{ facing [rd 0x004] quiet with resetLine := true }, [], 0x004, 4, rfl, rfl⟩,
    ⟨{ facing [.write 0x080 [1]] quiet with resetLine := true }, [], 0x080, [1], rfl, rfl⟩,
    ⟨{ facing [.resetPin false] quiet with resetLine := true }, [], rfl, rfl⟩,
    ⟨facing [.resetPin false] dead, [], rfl, rfl⟩⟩
theorem witness_MalformedTableNeverRuns_step : ∃ s t : State, s.DeadOfTable ∧ step s = .next t :=
  ⟨facing [wr 0x000 0x60000000] (State.resetWith rcBad), _,
    ⟨by decide +kernel, by decide +kernel, by decide +kernel, by decide +kernel, by decide +kernel⟩, rfl⟩
theorem witness_MalformedTableNeverRuns : ¬ rcBad.WellFormed ∧ ∃ t,
    Sys2Proof.core.run 2 { State.resetWith rcBad with pending := [wr 0x000 0x60000000, rd 0x080] } = .next t :=
  ⟨by decide +kernel, _, rfl⟩
theorem witness_FatalLeavesOnlyByReset :
    (∃ t, dead.fatal = true ∧ step (facing [wr 0x080 9] dead) = .next t) ∧
    (∃ t, dead.fatal = true ∧ step (facing [wr 0x014 1] dead) = .next t) ∧
    (∃ t, dead.fatal = true ∧ step (facing [.resetPin false] { dead with resetLine := true }) = .next t) :=
  ⟨⟨_, rfl, rfl⟩, ⟨_, rfl, rfl⟩, ⟨_, rfl, rfl⟩⟩
/-- Two dead engines that differ in a register. -/
theorem witness_FatalHidesFieldRegisters : ∃ s s' : State, s.fatal = true ∧ s.SameBeyondRegs s' ∧ s.reg 0 ≠ s'.reg 0 ∧
    (∃ t, Sys2Proof.core.run 2 s = .next t) ∧ (∃ t', Sys2Proof.core.run 2 s' = .next t') :=
  ⟨facing [rd 0x080, wr 0x014 1] dead, (facing [rd 0x080, wr 0x014 1] dead).setReg 0 ⟨9, 32⟩, rfl,
    ⟨rfl, rfl, rfl, rfl, rfl, rfl, rfl, rfl, rfl⟩, by decide +kernel, ⟨_, rfl⟩, ⟨_, rfl⟩⟩
theorem witness_ErrorsArePrecise : ∃ s t : State, s.fatal = false ∧ step s = .next t ∧ t.fatal = true ∧ t.err ≠ .cfg :=
  ⟨facing [wr 0x000 0x12108000] (holding 16 1 256), _, by decide +kernel, rfl, by decide +kernel, by decide +kernel⟩
theorem witness_ConstantRomNeverChanges : ∃ t, step (facing [wr 0x014 1] dead) = .next t := ⟨_, rfl⟩
theorem witness_WindowMapAndLegalAccesses : windowAt 0xD8C = some (.cromw 355) ∧ legalRead 0x17C 4 = some (.fbw 31) ∧
    legalWrite 0x0FC [1, 0, 0, 0] = some (.f 31, 1) ∧ windowAt 0x07C = none ∧ windowAt 0x7FC = none := by decide
theorem witness_RegisterReadsReturnTheirWords (k : Nat) (hk : k < 356) :
    ∃ (s : State) (off : BitVec 12) (rest : List BusEvent), s.pending = .read off 4 :: rest ∧ s.resetLine = false ∧
      off.toNat = 0x800 + 4 * k :=
  ⟨facing [rd (BitVec.ofNat 12 (0x800 + 4 * k))] quiet, BitVec.ofNat 12 (0x800 + 4 * k), [], rfl, rfl,
    by simp only [BitVec.toNat_ofNat]; omega⟩
theorem witness_RegisterReadsReturnTheirWords_fixed (off : BitVec 12) :
    ∃ (s : State) (rest : List BusEvent), s.pending = .read off 4 :: rest ∧ s.resetLine = false :=
  ⟨facing [rd off] dead, [], rfl, rfl⟩
theorem witness_FieldRegisterReadsAndWrites (i : FReg) :
    (∃ (s : State) (off : BitVec 12) (w : Word), s.pending = .write off (wordBytes w) :: [] ∧ s.resetLine = false ∧
      s.fatal = false ∧ off.toNat = 0x080 + 4 * i.val) ∧
    (∃ (s : State) (off : BitVec 12), s.pending = .read off 4 :: [] ∧ s.resetLine = false ∧
      s.fatal = false ∧ off.toNat = 0x080 + 4 * i.val) ∧
    (∃ (s : State) (off : BitVec 12), s.pending = .read off 4 :: [] ∧ s.resetLine = false ∧
      s.fatal = false ∧ off.toNat = 0x100 + 4 * i.val) :=
  ⟨⟨facing [wr (BitVec.ofNat 12 (0x080 + 4 * i.val)) 0xFFFFFFFF] quiet, BitVec.ofNat 12 (0x080 + 4 * i.val),
      0xFFFFFFFF, rfl, rfl, rfl, by simp only [BitVec.toNat_ofNat]; omega⟩,
    ⟨facing [rd (BitVec.ofNat 12 (0x080 + 4 * i.val))] quiet, BitVec.ofNat 12 (0x080 + 4 * i.val), rfl, rfl, rfl,
      by simp only [BitVec.toNat_ofNat]; omega⟩,
    ⟨facing [rd (BitVec.ofNat 12 (0x100 + 4 * i.val))] quiet, BitVec.ofNat 12 (0x100 + 4 * i.val), rfl, rfl, rfl,
      by simp only [BitVec.toNat_ofNat]; omega⟩⟩
theorem witness_IllegalAccessRaisesBusAccess :
    (∃ (s : State) (off : BitVec 12) (size : Nat), s.pending = .read off size :: [] ∧ s.resetLine = false ∧
      s.fatal = false ∧ legalRead off size = none) ∧
    (∃ (s : State) (off : BitVec 12) (data : List Byte), s.pending = .write off data :: [] ∧ s.resetLine = false ∧
      s.fatal = false ∧ legalWrite off data = none) :=
  ⟨⟨facing [rd 0xFFC] quiet, 0xFFC, 4, rfl, rfl, rfl, by decide⟩,
    ⟨facing [wr 0x100 1] quiet, 0x100, wordBytes 1, rfl, rfl, rfl, by decide⟩⟩
theorem witness_AccessesWhileFatal :
    (∃ (s : State) (off : BitVec 12) (i : FReg), s.pending = .read off 4 :: [] ∧ s.resetLine = false ∧
      s.fatal = true ∧ (off.toNat = 0x080 + 4 * i.val ∨ off.toNat = 0x100 + 4 * i.val)) ∧
    (∃ (s : State) (off : BitVec 12) (size : Nat), s.pending = .read off size :: [] ∧ s.resetLine = false ∧
      s.fatal = true ∧ legalRead off size = none) ∧
    (∃ (s : State) (off : BitVec 12) (data : List Byte), s.pending = .write off data :: [] ∧ s.resetLine = false ∧
      s.fatal = true ∧ (off ≠ 0x014 ∨ data.length ≠ 4)) :=
  ⟨⟨facing [rd 0x17C] dead, 0x17C, 31, rfl, rfl, rfl, by decide⟩,
    ⟨facing [rd 0x014] dead, 0x014, 4, rfl, rfl, rfl, by decide⟩,
    ⟨facing [.write 0x014 [1]] dead, 0x014, [1], rfl, rfl, rfl, by decide⟩⟩
theorem witness_LittleEndianLanes : (wordBytes 0x80000001)[3]? = some 0x80 ∧ (wordBytes 0x80000001)[0]? = some 1 := by
  decide
theorem witness_HostAccessReachesTheWindow : (∃ addr, Config.base ≤ addr ∧ addr ≤ Config.base + 4095) ∧
    (∃ addr, addr < Config.base ∨ Config.base + 4095 < addr) :=
  ⟨⟨Config.base + 4095, by omega, by omega⟩, ⟨Config.base + 4096, by omega⟩⟩
theorem witness_PermutationProtocol : ∃ (s : State) (x : Fin 16 → Word) (i : Fin 16) (rest : List BusEvent),
    s.fatal = false ∧ s.resetLine = false ∧ s.pending = loadEvents x ++ [.write 0x000 (wordBytes 0x60000000),
      .read (BitVec.ofNat 12 (0x080 + 4 * i.val)) 4] ++ rest :=
  ⟨facing (loadEvents (fun _ => 0xFFFFFFFF) ++ [wr 0x000 0x60000000, rd (BitVec.ofNat 12 (0x080 + 4 * 15))]) quiet,
    fun _ => 0xFFFFFFFF, 15, [], rfl, rfl, (List.append_nil _).symm⟩

end Sys2Proof.Tests
end

section
/-! PROOFS. The statement of `00_scope.md`: `bitlen` is the least bound of R10. -/

namespace Sys2Proof.Machine

theorem bitlen_zero : bitlen 0 = 0 := rfl

theorem bitlen_of_ne_zero {c : Nat} (hc : c ≠ 0) : bitlen c = Nat.log2 c + 1 := if_neg hc

/-- The Galois form of R10: a width bounds `bitlen c` exactly when `c` fits in it. -/
theorem bitlen_le_iff_lt_two_pow (c n : Nat) : bitlen c ≤ n ↔ c < 2 ^ n := by
  by_cases hc : c = 0
  · subst hc
    simp [bitlen_zero]
  · rw [bitlen_of_ne_zero hc, Nat.succ_le_iff, Nat.log2_lt hc]

/-- Settles O8: both halves are directions of `bitlen_le_iff_lt_two_pow`, the first at `n = bitlen c`. -/
theorem bitlenIsLeastBound : Obligations.BitlenIsLeastBound := fun c =>
  ⟨(bitlen_le_iff_lt_two_pow c _).1 le_rfl, fun n => (bitlen_le_iff_lt_two_pow c n).2⟩

end Sys2Proof.Machine
end

section
/-! PROOFS. The constant ROM of `10_state.md` R26 and R27, and what reset makes of it (R37). -/

namespace Sys2Proof.Machine

/-! ### The layout of CROM -/

theorem cromAt_table (rc : RcTable) (r : Fin 21) (i : Fin 16) : cromAt rc (16 * r.val + i.val) = some rc[r][i] := by
  have row : (16 * r.val + i.val) / 16 = r.val := by omega
  have col : (16 * r.val + i.val) % 16 = i.val := by omega
  rw [cromAt, dif_pos (by omega)]
  simp only [row, col]
  rfl

/-- An entry of the table's part of CROM, by the row and column its index splits into. -/
theorem cromAt_of_lt {k : Nat} (h : k < 336) (rc : RcTable) :
    ∃ (r : Fin 21) (i : Fin 16), k = 16 * r.val + i.val ∧ cromAt rc k = some rc[r][i] := by
  obtain ⟨r, i, rfl⟩ : ∃ (r : Fin 21) (i : Fin 16), k = 16 * r.val + i.val :=
    ⟨⟨k / 16, by omega⟩, ⟨k % 16, by omega⟩, (Nat.div_add_mod k 16).symm⟩
  exact ⟨r, i, rfl, cromAt_table rc r i⟩

theorem cromAt_diag (rc : RcTable) (i : Fin 16) : cromAt rc (336 + i.val) = some diagWords[i] := by
  rw [cromAt, dif_neg (by omega), dif_pos (by omega)]
  simp only [Nat.add_sub_cancel_left]
  rfl

theorem diagWords_eq_two_pow : ∀ i : Fin 16, 1 ≤ i.val → i.val ≤ 14 →
    diagWords[i] = BitVec.ofNat 32 (2 ^ (i.val - 1)) := by decide

theorem diagWords_lt_P : ∀ i : Fin 16, (diagWords[i]).toNat < P := by decide

theorem cromAt_eq_none {k : Nat} (h : 356 ≤ k) (rc : RcTable) : cromAt rc k = none := by
  have absent := cromAt_isSome rc k
  rw [decide_eq_false (Nat.not_lt.2 h)] at absent
  simpa using absent

/-- What the model fixes of CROM is canonical (`10_state.md` R27). -/
theorem cromAt_lt_P_of_fixed {rc : RcTable} {k : Nat} {w : Word} (h : 336 ≤ k) (hw : cromAt rc k = some w) :
    w.toNat < P := by
  by_cases diag : k < 352
  · obtain ⟨j, rfl⟩ := Nat.exists_eq_add_of_le h
    rw [cromAt_diag rc ⟨j, by omega⟩, Option.some.injEq] at hw
    exact hw ▸ diagWords_lt_P _
  · rw [cromAt, dif_neg (by omega), dif_neg diag] at hw
    split_ifs at hw <;> cases hw <;> decide

theorem table_lt_P_iff_wellFormed (rc : RcTable) :
    (∀ k w, k < 336 → cromAt rc k = some w → w.toNat < P) ↔ rc.WellFormed := by
  constructor
  · intro h r i
    exact h _ _ (by omega) (cromAt_table rc r i)
  · intro h k w hk hw
    obtain ⟨r, i, -, entry⟩ := cromAt_of_lt hk rc
    rw [entry, Option.some.injEq] at hw
    exact hw ▸ h r i

/-- Of a well-formed table, every entry of CROM is canonical. -/
theorem cromAt_lt_P {rc : RcTable} (h : rc.WellFormed) {k : Nat} {w : Word} (hw : cromAt rc k = some w) :
    w.toNat < P := by
  by_cases hk : k < 336
  · exact (table_lt_P_iff_wellFormed rc).2 h k w hk hw
  · exact cromAt_lt_P_of_fixed (Nat.not_lt.1 hk) hw

/-- Settles O7: the table's entries by division with remainder, the others by their index. -/
theorem cromHoldsTableAndConstants : Obligations.CromHoldsTableAndConstants := by
  intro rc
  refine ⟨cromAt_table rc, cromAt_diag rc 0, ?_, cromAt_diag rc 15, rfl, rfl, rfl, rfl,
    fun k hk => cromAt_eq_none hk rc, fun k w => cromAt_lt_P_of_fixed, table_lt_P_iff_wellFormed rc⟩
  intro i one_le le_14
  have entry := cromAt_diag rc ⟨i, by omega⟩
  rwa [diagWords_eq_two_pow _ one_le le_14] at entry

/-! ### The reset check -/

theorem cromBad_eq_true_iff (rc : RcTable) (k : Nat) :
    cromBad rc k = true ↔ ∃ w, cromAt rc k = some w ∧ P ≤ w.toNat := by
  unfold cromBad
  split <;> simp [*]

theorem cromBad_eq_false_iff (rc : RcTable) (k : Nat) :
    cromBad rc k = false ↔ ∀ w, cromAt rc k = some w → w.toNat < P := by
  unfold cromBad
  split <;> simp [*]

/-- The reset check finds nothing exactly when the table is well formed (`70_reset_and_hazards.md` R243). -/
theorem firstBad_eq_none_iff (rc : RcTable) : firstBad rc = none ↔ rc.WellFormed := by
  simp only [firstBad, List.find?_range_eq_none, Bool.not_eq_true', cromBad_eq_false_iff]
  constructor
  · intro h
    exact (table_lt_P_iff_wellFormed rc).1 fun k w hk => h k (by omega) w
  · intro h k _ w
    exact cromAt_lt_P h

/-- What the reset check finds is the least index of a bad entry (`70_reset_and_hazards.md` R243). -/
theorem firstBad_eq_some_iff (rc : RcTable) (k : Nat) : firstBad rc = some k ↔
    (∃ w, cromAt rc k = some w ∧ P ≤ w.toNat) ∧ k < 356 ∧ ∀ j < k, ∀ w, cromAt rc j = some w → w.toNat < P := by
  simp only [firstBad, List.find?_range_eq_some, List.mem_range, Bool.not_eq_true', cromBad_eq_true_iff,
    cromBad_eq_false_iff]

theorem exists_firstBad_of_malformed {rc : RcTable} (h : ¬ rc.WellFormed) : ∃ k, firstBad rc = some k :=
  Option.ne_none_iff_exists'.1 fun none => h ((firstBad_eq_none_iff rc).1 none)

/-- The index the reset check finds survives being put in the 32 bits of ERRINFO. -/
theorem ofNat_toNat_of_firstBad {rc : RcTable} {k : Nat} (h : firstBad rc = some k) :
    (BitVec.ofNat 32 k).toNat = k := by
  obtain ⟨-, bound, -⟩ := (firstBad_eq_some_iff rc k).1 h
  rw [BitVec.toNat_ofNat]
  omega

/-! ### The reset state -/

theorem reg_resetWith (rc : RcTable) (i : FReg) : (State.resetWith rc).reg i = ⟨0, 31⟩ := by
  simp [State.reg]

/-- Settles O44: the error fields are the verdict of the reset check, `firstBad_eq_none_iff` and
`firstBad_eq_some_iff`. -/
theorem resetStateValues : Obligations.ResetStateValues := by
  intro rc
  refine ⟨reg_resetWith rc, rfl, rfl, rfl, fun wellFormed => ?_, fun malformed => ?_⟩
  · have none := (firstBad_eq_none_iff rc).2 wellFormed
    simp [none, ErrCode.code]
  · obtain ⟨k, found⟩ := exists_firstBad_of_malformed malformed
    obtain ⟨⟨w, entry, bad⟩, -, least⟩ := (firstBad_eq_some_iff rc k).1 found
    have info : (State.resetWith rc).errInfo.toNat = k := by
      rw [resetWith_errInfo, found]
      exact ofNat_toNat_of_firstBad found
    rw [info]
    refine ⟨by simp [found], by simp [found, ErrCode.code], w, entry, bad, fun j v hj => least j hj v⟩

theorem resetWith_inv (rc : RcTable) : (State.resetWith rc).Inv where
  regsOk i := by
    rw [reg_resetWith]
    exact ⟨by decide, by decide, by decide⟩
  errIffFatal := by
    cases found : firstBad rc <;> simp [found]
  errInfoFits := by
    cases found : firstBad rc with
    | none => simp [State.ErrInfoFits, found]
    | some k => simp [State.ErrInfoFits, found, ofNat_toNat_of_firstBad found]
  sequencerIdle := ⟨rfl, rfl⟩
  cfgIffMalformed := by
    rw [resetWith_rc, ← firstBad_eq_none_iff]
    cases found : firstBad rc <;> simp [found]

/-- Settles O43. -/
theorem resetHasInvariant : Obligations.ResetHasInvariant :=
  ⟨resetWith_inv, resetWith_inv Config.rc⟩

end Sys2Proof.Machine
end

section
/-! PROOFS. What the commands write: the composite commands leave canonical values (`10_state.md` R23), and no step
writes the constant ROM (R26). -/

namespace Sys2Proof.Machine

/-! ### The composite commands -/

/-- `PERM` walks the sequencer from the first transition to idle: it applies the permutation and leaves PHASE and RND
idle (`43_permutation_engine.md` R185, R187). -/
theorem exec_perm (s : State) : exec .perm s = .next (s.midPerm (permute s.rc s.stateVec) .idle 0) := by
  show Host.Outcome.next (seqRun 22 (seqStart s)) = _
  simp [seqRun, seqStep_start, seqStep_ext1, seqStep_int, seqStep_ext2, permute]

/-- What a composite command does with the element each register denotes: it writes one register, or the state
vector, or the state vector through the sequencer. -/
theorem exec_composite {i : Instr} (legal : i.wf = true) (composite : IsComposite i) :
    (∃ (rd : FReg) (f : RcTable → (FReg → Fp) → Fp), ∀ s, exec i s = .next (s.setReg rd (reduced (f s.rc s.canon)))) ∨
    (∃ f : RcTable → StateVec → StateVec, ∀ s, exec i s = .next (s.setStateVec (f s.rc s.stateVec))) ∨
    (∃ f : RcTable → StateVec → StateVec, ∀ s, exec i s = .next (s.midPerm (f s.rc s.stateVec) .idle 0)) := by
  have row : ∀ r : RowField, rowLegal r = true → r.val < 21 := fun r h => of_decide_eq_true h
  cases i with
  | fldc rd c => exact absurd trivial composite
  | fadd rd ra rb => exact absurd trivial composite
  | fmulc rd ra c => exact absurd trivial composite
  | fmul rd ra rb => exact absurd trivial composite
  | fred rd ra => exact absurd trivial composite
  | sbox rd ra => exact .inl ⟨rd, fun _ canon => sbox7 (canon ra), fun s => rfl⟩
  | sboxf => exact .inr (.inl ⟨fun _ => sboxAll, fun s => rfl⟩)
  | sboxp => exact .inl ⟨0, fun _ canon => sbox7 (canon 0), fun s => rfl⟩
  | arcf r =>
    refine .inr (.inl ⟨fun rc => arcAll rc ⟨r, row r legal⟩, fun s => ?_⟩)
    rw [exec, execArcf, withRow_of_legal (row r legal)]
  | arcp r =>
    refine .inl ⟨0, fun rc canon => canon 0 + rcElem rc ⟨r, row r legal⟩ 0, fun s => ?_⟩
    rw [exec, execArcp, withRow_of_legal (row r legal)]
  | mext => exact .inr (.inl ⟨fun _ => ext, fun s => rfl⟩)
  | mint => exact .inr (.inl ⟨fun _ => int, fun s => rfl⟩)
  | rndf r =>
    refine .inr (.inl ⟨fun rc => roundF rc ⟨r, row r legal⟩, fun s => ?_⟩)
    rw [exec, execRndf, withRow_of_legal (row r legal)]
  | rndp r =>
    refine .inr (.inl ⟨fun rc => roundP rc ⟨r, row r legal⟩, fun s => ?_⟩)
    rw [exec, execRndp, withRow_of_legal (row r legal)]
  | perm => exact .inr (.inr ⟨permute, exec_perm⟩)

theorem reg_setReg_reduced (s : State) (rd : FReg) (x : Fp) (j : FReg) :
    (s.setReg rd (reduced x)).reg j = s.reg j ∨ ((s.setReg rd (reduced x)).reg j).Canonical := by
  rw [reg_setReg]
  split
  · exact .inr (reduced_canonical x)
  · exact .inl rfl

theorem reg_setStateVec_canonical (s : State) (v : StateVec) (j : FReg) :
    (s.setStateVec v).reg j = s.reg j ∨ ((s.setStateVec v).reg j).Canonical := by
  rw [reg_setStateVec]
  split
  · exact .inr (reduced_canonical _)
  · exact .inl rfl

/-- Settles O39: whichever of the three writes of `exec_composite` the command makes, it writes reduced values. -/
theorem compositeWritesAreCanonical : Obligations.CompositeWritesAreCanonical := by
  intro i s legal composite
  obtain ⟨rd, f, run⟩ | ⟨f, run⟩ | ⟨f, run⟩ := exec_composite legal composite
  · exact ⟨_, run s, rfl, reg_setReg_reduced s rd _⟩
  · exact ⟨_, run s, rfl, reg_setStateVec_canonical s _⟩
  · exact ⟨_, run s, rfl, reg_setStateVec_canonical s _⟩

/-! ### The constant ROM is read only -/

theorem driveReset_rc (b : Bool) (s : State) : (driveReset b s).rc = s.rc := by
  unfold driveReset
  split <;> rfl

theorem Served.rc {s u t : State} {e : BusEvent} (served : Served s e u t) : t.rc = u.rc := by
  cases served with
  | nothing => rfl
  | pin b => exact driveReset_rc b u
  | read off size =>
    obtain ⟨-, -, -, rc, -⟩ := busRead_keeps off size u
    exact rc
  | badWrite => exact (raise_keepsHostSide _ _ u).rc
  | command w i t' alive decoded ran =>
    obtain ⟨t', ran', keeps⟩ := exec_next i u
    obtain rfl : t' = t := by simpa [ran'] using ran
    exact keeps.rc
  | badWord => exact (raise_keepsHostSide _ _ u).rc
  | softReset => rfl
  | fieldWrite => rfl

/-- Settles O52: by everything a step can do, `step_cases`. -/
theorem constantRomNeverChanges : Obligations.ConstantRomNeverChanges := by
  intro s t run
  obtain ⟨-, rfl⟩ | ⟨e, rest, -, served⟩ := step_cases run
  · rfl
  · exact served.rc

end Sys2Proof.Machine
end

section
/-! PROOFS. Support for the invariant: a decoded command is legal, and a legal command's word decodes to it
(`30_encoding.md` R91, R96). -/

namespace Sys2Proof.Machine

theorem wf_of_decodeWord {w : Word} {i : Instr} (h : decodeWord w = .ok i) : i.wf = true := by
  unfold decodeWord at h
  split at h
  case h_16 => cases h
  all_goals
    obtain ⟨-, legal, rfl⟩ := checkWord_eq_ok.1 h
    exact legal

theorem operandBits_lt (i : Instr) : i.operandBits < 2 ^ 26 := by
  cases i <;> simp only [Instr.operandBits] <;> omega

theorem checkWord_of_eq {mbz : Nat} {i j : Instr} (zero : mbz = 0) (same : j = i) (legal : i.wf = true) :
    checkWord mbz j = .ok i :=
  checkWord_eq_ok.2 ⟨zero, same ▸ legal, same⟩

/-- The decoder reads every field back from the number of a legal command's word. -/
theorem decodeWord_of_toNat {w : Word} {i : Instr} (legal : i.wf = true)
    (number : w.toNat = i.opcode * 2 ^ 26 + i.operandBits) : decodeWord w = .ok i := by
  have op : fieldOp w = i.opcode := by
    have below := operandBits_lt i
    rw [fieldOp_eq, number]
    omega
  unfold decodeWord
  rw [op]
  cases i
  all_goals
    simp only [Instr.opcode, Instr.operandBits] at number
    refine checkWord_of_eq ?_ ?_ legal
    · simp only [bitField, number]
      omega
  case sboxf | sboxp | mext | mint | perm => rfl
  case fldc | fadd | fmulc | fmul | fred | sbox | arcf | arcp | rndf | rndp =>
    congr 1
    all_goals
      apply Fin.ext
      simp only [fieldRd_val, fieldRa_val, fieldRb_val, fieldCidx_val, fieldRow_val, number]
      omega

/-- Decoding undoes encoding (`30_encoding.md` R96). -/
theorem decodeWord_encode {i : Instr} (legal : i.wf = true) : decodeWord (encode i) = .ok i :=
  decodeWord_of_toNat legal (encode_toNat i (by cases i <;> simp [Instr.opcode]) (operandBits_lt i))

end Sys2Proof.Machine
end

section
/-! PROOFS. The invariant of reachable states is kept by every step (`10_state.md` R21, R24, R28, R31). -/

namespace Sys2Proof.Machine

/-! ### The information words -/

/-- `BUS_ACCESS` puts the offset in bits 11:0 and the direction in bit 31 (`20_memory.md` R63). -/
theorem accessInfo_toNat (isWrite : Bool) (off : BitVec 12) :
    (accessInfo isWrite off).toNat = off.toNat + if isWrite then 2 ^ 31 else 0 := by
  have word : off.toNat < 2 ^ 31 := by omega
  cases isWrite with
  | false =>
    simp [accessInfo]
    omega
  | true =>
    have disjoint := Nat.two_pow_add_eq_or_of_lt word 1
    simp only [accessInfo, if_true, BitVec.toNat_or, BitVec.toNat_setWidth]
    rw [Nat.mod_eq_of_lt (by omega), Nat.add_comm]
    exact disjoint.symm

theorem errInfoFits_busAccess (s : State) (isWrite : Bool) (off : BitVec 12) :
    (s.raised .busAccess (accessInfo isWrite off)).ErrInfoFits := by
  refine ⟨off, ?_⟩
  rw [raised_errInfo, accessInfo_toNat]
  cases isWrite <;> simp

/-! ### Tracked widths bound the values -/

theorem literal_ok (w : Word) : FieldReg.Ok ⟨w.toNat, Config.bwLit⟩ :=
  ⟨w.isLt, by show 31 ≤ 32; omega, by show 32 ≤ 256; omega⟩

theorem FieldReg.Canonical.ok {r : FieldReg} (h : r.Canonical) : r.Ok := by
  obtain ⟨canonical, width⟩ := h
  rw [FieldReg.Ok, width]
  exact ⟨canonical.trans (by decide), by decide, by decide⟩

theorem sum_ok {a b : FieldReg} (ha : a.Ok) (hb : b.Ok) (fits : sumWidth a b ≤ 256) :
    FieldReg.Ok ⟨a.val + b.val, sumWidth a b⟩ := by
  obtain ⟨va, la, -⟩ := ha
  obtain ⟨vb, -, -⟩ := hb
  have va' := va.trans_le (Nat.pow_le_pow_right two_pos (le_max_left a.bw b.bw))
  have vb' := vb.trans_le (Nat.pow_le_pow_right two_pos (le_max_right a.bw b.bw))
  refine ⟨?_, ?_, fits⟩
  · show a.val + b.val < 2 ^ (max a.bw b.bw + 1)
    rw [pow_succ]
    omega
  · show 31 ≤ max a.bw b.bw + 1
    omega

/-- The product of a register by a number below `2^n`, with `n` added to the width. -/
theorem product_ok {a : FieldReg} (ha : a.Ok) {v n : Nat} (hv : v < 2 ^ n) (fits : a.bw + n ≤ 256) :
    FieldReg.Ok ⟨a.val * v, a.bw + n⟩ := by
  obtain ⟨va, la, -⟩ := ha
  refine ⟨?_, la.trans (Nat.le_add_right _ _), fits⟩
  show a.val * v < 2 ^ (a.bw + n)
  rw [pow_add]
  exact Nat.mul_lt_mul'' va hv

/-! ### The invariant, operation by operation -/

/-- With FATAL = 0 the table is well formed: a malformed one stands as CFG from reset on. -/
theorem State.Inv.wellFormed {s : State} (h : s.Inv) (alive : s.fatal = false) : s.rc.WellFormed := by
  by_contra malformed
  have cfg := h.cfgIffMalformed.2 malformed
  have dead := h.errIffFatal.2 (by simp [cfg])
  simp [alive] at dead

/-- A producer's end: a result within its width, or `ARITH_OVERFLOW` with the command word. -/
theorem State.Inv.produce {s : State} (h : s.Inv) {i : Instr} (legal : i.wf = true) (producer : IsProducer i)
    (rd : FReg) {r : FieldReg} (ok : r.bw ≤ 256 → r.Ok) : (Machine.produce i rd r s).Inv := by
  by_cases fits : r.bw ≤ 256
  · rw [produce_of_fits fits]
    exact h.setReg rd (ok fits)
  · rw [produce_of_tooWide (Nat.not_le.1 fits)]
    exact h.raise (by decide) (by decide) ⟨i, decodeWord_encode legal, producer⟩

/-- A legal `cidx` names an entry, and with FATAL = 0 a canonical one. -/
theorem State.Inv.withConstant {s : State} (h : s.Inv) (alive : s.fatal = false) {c : CIdx}
    (legal : cidxLegal c = true) (i : Instr) {k : Word → State} (hk : ∀ w, w.toNat < P → (k w).Inv) :
    (Machine.withConstant i c s k).Inv := by
  obtain ⟨w, entry⟩ := Option.isSome_iff_exists.1 ((cromAt_isSome s.rc c.val).trans legal)
  rw [withConstant_of_some entry]
  exact hk w (cromAt_lt_P (h.wellFormed alive) entry)

theorem State.Inv.midPerm_idle {s : State} (h : s.Inv) (v : StateVec) : (s.midPerm v .idle 0).Inv := by
  obtain ⟨phase, rnd⟩ := h.sequencerIdle
  exact (h.setStateVec v).congr rfl rfl rfl rfl phase.symm rnd.symm rfl

/-- Every command keeps the invariant. -/
theorem State.Inv.exec {s t : State} (h : s.Inv) (alive : s.fatal = false) {i : Instr} (legal : i.wf = true)
    (run : Machine.exec i s = .next t) : t.Inv := by
  by_cases composite : IsComposite i
  · obtain ⟨rd, f, run'⟩ | ⟨f, run'⟩ | ⟨f, run'⟩ := exec_composite legal composite
    all_goals
      rw [run' s] at run
      injection run with run
      subst run
    · exact h.setReg rd (reduced_ok _)
    · exact h.setStateVec _
    · exact h.midPerm_idle _
  · cases i with
    | fldc rd c =>
      injection run with run
      subst run
      exact h.withConstant alive legal _ fun w canonical => h.setReg rd (FieldReg.Canonical.ok ⟨canonical, rfl⟩)
    | fadd rd ra rb =>
      injection run with run
      subst run
      exact h.produce legal trivial rd fun fits => sum_ok (h.regsOk ra) (h.regsOk rb) fits
    | fmulc rd ra c =>
      injection run with run
      subst run
      exact h.withConstant alive legal _ fun w _ => h.produce legal trivial rd fun fits =>
        product_ok (h.regsOk ra) ((bitlen_le_iff_lt_two_pow w.toNat _).1 le_rfl) fits
    | fmul rd ra rb =>
      injection run with run
      subst run
      obtain ⟨bound, -, -⟩ := h.regsOk rb
      exact h.produce legal trivial rd fun fits => product_ok (h.regsOk ra) bound fits
    | fred rd ra =>
      injection run with run
      subst run
      exact h.setReg rd (reduced_ok _)
    | _ => exact absurd id composite

theorem State.Inv.resetEngine {s : State} : (Machine.resetEngine s).Inv :=
  (resetWith_inv s.rc).congr rfl rfl rfl rfl rfl rfl rfl

theorem State.Inv.driveReset {s : State} (h : s.Inv) (b : Bool) : (Machine.driveReset b s).Inv := by
  unfold Machine.driveReset
  split
  · exact State.Inv.resetEngine
  · exact h.congr rfl rfl rfl rfl rfl rfl rfl

theorem State.Inv.raise_busAccess {s : State} (h : s.Inv) (isWrite : Bool) (off : BitVec 12) :
    (Machine.raise .busAccess (accessInfo isWrite off) s).Inv :=
  h.raise (by decide) (by decide) (errInfoFits_busAccess s isWrite off)

theorem State.Inv.busRead {s : State} (h : s.Inv) (off : BitVec 12) (size : Nat) :
    (Machine.busRead off size s).Inv := by
  unfold Machine.busRead
  split
  · exact h.congr rfl rfl rfl rfl rfl rfl rfl
  · exact (h.raise_busAccess false off).congr rfl rfl rfl rfl rfl rfl rfl

/-- Serving an event keeps the invariant; `u` is the state the event is taken from. -/
theorem State.Inv.served {s u t : State} {e : BusEvent} (h : u.Inv) (same : u.fatal = s.fatal)
    (served : Served s e u t) : t.Inv := by
  cases served with
  | nothing => exact h
  | pin b => exact h.driveReset b
  | read off size => exact h.busRead off size
  | badWrite off => exact h.raise_busAccess true off
  | command w i t alive decoded ran => exact h.exec (same.trans alive) (wf_of_decodeWord decoded) ran
  | badWord w reason alive rejected => exact h.raise (by decide) (by decide) ⟨reason, rejected⟩
  | softReset => exact State.Inv.resetEngine
  | fieldWrite off i w => exact h.setReg i (literal_ok w)

/-- Settles O42: by everything a step can do, `step_cases`, and what each of it does to the invariant. -/
theorem stepKeepsInvariant : Obligations.StepKeepsInvariant := by
  intro s t h run
  obtain ⟨-, rfl⟩ | ⟨e, rest, -, served⟩ := step_cases run
  · exact h
  · have taken : (takeEvent rest s).Inv := h.congr rfl rfl rfl rfl rfl rfl rfl
    exact taken.served (takeEvent_fatal rest s) served

end Sys2Proof.Machine
end

section
/-! PROOFS. The integer in a register is seen only modulo `P` (`10_state.md` R36): the relation `SameMeaning` is kept by
every operation, command and step. -/

namespace Sys2Proof.Machine

/-! ### The relation under the updates of the state -/

section

variable {s s' : State}

/-- Updates that leave the registers alone keep the relation if they agree on the rest. -/
theorem State.SameMeaning.of_regs (h : s.SameMeaning s') {t t' : State} (regs : t.regs = s.regs)
    (regs' : t'.regs = s'.regs) (beyond : t.SameBeyondRegs t') : t.SameMeaning t' where
  canon i := by
    simp only [State.canon, State.reg, regs, regs']
    exact h.canon i
  bw i := by
    simp only [State.reg, regs, regs']
    exact h.bw i
  beyond := beyond

theorem State.SameMeaning.stateVec (h : s.SameMeaning s') : s'.stateVec = s.stateVec :=
  funext fun i => h.canon (sReg i)

theorem State.SameMeaning.takeEvent (h : s.SameMeaning s') (rest : List BusEvent) :
    (takeEvent rest s).SameMeaning (takeEvent rest s') :=
  h.of_regs rfl rfl { h.beyond with pending := rfl, reply := rfl }

theorem State.SameMeaning.setReg (h : s.SameMeaning s') (i : FReg) {r r' : FieldReg} (value : toFp r'.val = toFp r.val)
    (width : r'.bw = r.bw) : (s.setReg i r).SameMeaning (s'.setReg i r') where
  canon j := by
    by_cases same : j = i
    · subst same
      rw [canon_setReg_same, canon_setReg_same, value]
    · rw [canon_setReg_other _ _ same, canon_setReg_other _ _ same, h.canon]
  bw j := by
    by_cases same : j = i
    · subst same
      rw [reg_setReg_same, reg_setReg_same, width]
    · rw [reg_setReg_other _ _ same, reg_setReg_other _ _ same, h.bw]
  beyond := { h.beyond with }

theorem State.SameMeaning.setStateVec (h : s.SameMeaning s') (v : StateVec) :
    (s.setStateVec v).SameMeaning (s'.setStateVec v) where
  canon j := by
    simp only [State.canon, reg_setStateVec]
    split
    · rfl
    · exact h.canon j
  bw j := by
    simp only [reg_setStateVec]
    split
    · rfl
    · exact h.bw j
  beyond := { h.beyond with }

theorem State.SameMeaning.midPerm (h : s.SameMeaning s') (v : StateVec) (phase : Phase) (rnd : Fin 21) :
    (s.midPerm v phase rnd).SameMeaning (s'.midPerm v phase rnd) :=
  (h.setStateVec v).of_regs rfl rfl { h.beyond with phase := rfl, rnd := rfl }

theorem State.SameMeaning.raise (h : s.SameMeaning s') (c : ErrCode) (w : Word) :
    (Machine.raise c w s).SameMeaning (Machine.raise c w s') := by
  by_cases dead : s.fatal = true
  · rw [raise_of_fatal dead, raise_of_fatal (h.beyond.fatal.trans dead)]
    exact h
  · rw [Bool.not_eq_true] at dead
    rw [raise_of_not_fatal dead, raise_of_not_fatal (h.beyond.fatal.trans dead)]
    exact h.of_regs rfl rfl { h.beyond with fatal := rfl, err := rfl, errInfo := rfl }

theorem State.SameMeaning.resetEngine (h : s.SameMeaning s') :
    (Machine.resetEngine s).SameMeaning (Machine.resetEngine s') where
  canon _ := rfl
  bw _ := rfl
  beyond := by
    obtain ⟨-, -, -, -, -, rc, line, pending, reply⟩ := h.beyond
    constructor <;> simp [rc, line, pending, reply]

theorem State.SameMeaning.driveReset (h : s.SameMeaning s') (b : Bool) :
    (Machine.driveReset b s).SameMeaning (Machine.driveReset b s') := by
  have driven : ∀ level : Bool, { s with resetLine := level }.SameMeaning { s' with resetLine := level } :=
    fun _ => h.of_regs rfl rfl { h.beyond with resetLine := rfl }
  unfold Machine.driveReset
  rw [h.beyond.resetLine]
  split
  · exact (driven false).resetEngine
  · exact driven b

theorem State.SameMeaning.produce (h : s.SameMeaning s') (i : Instr) (rd : FReg) {r r' : FieldReg}
    (value : toFp r'.val = toFp r.val) (width : r'.bw = r.bw) :
    (Machine.produce i rd r s).SameMeaning (Machine.produce i rd r' s') := by
  unfold Machine.produce
  rw [width]
  split
  · exact h.raise _ _
  · exact h.setReg rd value width

theorem State.SameMeaning.withConstant (h : s.SameMeaning s') (i : Instr) (c : CIdx) {k k' : Word → State}
    (hk : ∀ w, (k w).SameMeaning (k' w)) :
    (Machine.withConstant i c s k).SameMeaning (Machine.withConstant i c s' k') := by
  unfold Machine.withConstant State.constant
  rw [h.beyond.rc]
  split
  · exact hk _
  · exact h.raise _ _

/-! ### Commands -/

/-- Both results are next states, and they have the same meaning. -/
def SameNext (r r' : Result) : Prop := ∃ t t', r = .next t ∧ r' = .next t' ∧ t.SameMeaning t'

theorem State.SameMeaning.next {t t' : State} (h : t.SameMeaning t') : SameNext (.next t) (.next t') :=
  ⟨t, t', rfl, rfl, h⟩

/-- A command works on the elements the registers denote, and checks widths only. -/
theorem State.SameMeaning.exec (h : s.SameMeaning s') {i : Instr} (legal : i.wf = true) :
    SameNext (Machine.exec i s) (Machine.exec i s') := by
  by_cases composite : IsComposite i
  · obtain ⟨rd, f, run⟩ | ⟨f, run⟩ | ⟨f, run⟩ := exec_composite legal composite
    · rw [run, run, h.beyond.rc, funext h.canon]
      exact (h.setReg rd rfl rfl).next
    · rw [run, run, h.beyond.rc, h.stateVec]
      exact (h.setStateVec _).next
    · rw [run, run, h.beyond.rc, h.stateVec]
      exact (h.midPerm _ _ _).next
  · cases i with
    | fldc rd c => exact (h.withConstant _ c fun w => h.setReg rd rfl rfl).next
    | fadd rd ra rb =>
      refine (h.produce _ rd ?_ ?_).next
      · rw [toFp_add, toFp_add]
        exact congrArg₂ _ (h.canon ra) (h.canon rb)
      · simp only [sumWidth, h.bw]
    | fmulc rd ra c =>
      refine (h.withConstant _ c fun w => h.produce _ rd ?_ ?_).next
      · rw [toFp_mul, toFp_mul]
        exact congrArg (· * toFp w.toNat) (h.canon ra)
      · simp only [mulConstWidth, h.bw]
    | fmul rd ra rb =>
      refine (h.produce _ rd ?_ ?_).next
      · rw [toFp_mul, toFp_mul]
        exact congrArg₂ _ (h.canon ra) (h.canon rb)
      · simp only [mulWidth, h.bw]
    | fred rd ra =>
      refine (h.setReg rd ?_ ?_).next
      · rw [h.canon]
      · rfl
    | _ => exact absurd id composite

/-! ### The bus -/

/-- Reads of the window return `canon(i)` and the width, never the integer (`20_memory.md` R60, R61). -/
theorem State.SameMeaning.readWord (h : s.SameMeaning s') (r : WindowReg) :
    Machine.readWord r s' = Machine.readWord r s := by
  obtain ⟨canon, bw, beyond⟩ := h
  cases r with
  | cmd => rfl
  | status => simp only [Machine.readWord, beyond.fatal]
  | err => simp only [Machine.readWord, beyond.err]
  | errInfo => exact beyond.errInfo
  | cfg => rfl
  | ctrl => rfl
  | f i => simp only [Machine.readWord, dataWord, beyond.fatal, canon]
  | fbw i => simp only [Machine.readWord, dataWord, beyond.fatal, bw]
  | cromw k => simp only [Machine.readWord, beyond.rc]

theorem State.SameMeaning.busRead (h : s.SameMeaning s') (off : BitVec 12) (size : Nat) :
    (Machine.busRead off size s).SameMeaning (Machine.busRead off size s') := by
  unfold Machine.busRead
  split
  · rw [h.readWord]
    exact h.of_regs rfl rfl { h.beyond with reply := rfl }
  · have raised := h.raise .busAccess (accessInfo false off)
    exact raised.of_regs rfl rfl { raised.beyond with reply := rfl }

theorem State.SameMeaning.writeCmd (h : s.SameMeaning s') (w : Word) :
    SameNext (Machine.writeCmd w s) (Machine.writeCmd w s') := by
  unfold Machine.writeCmd
  rw [h.beyond.fatal]
  split
  · exact h.next
  · split
    · next decoded => exact h.exec (wf_of_decodeWord decoded)
    · exact (h.raise _ w).next

theorem State.SameMeaning.writeWord (h : s.SameMeaning s') (r : WindowReg) (w : Word) :
    SameNext (Machine.writeWord r w s) (Machine.writeWord r w s') := by
  cases r with
  | cmd => exact h.writeCmd w
  | ctrl =>
    simp only [Machine.writeWord, writeCtrl]
    split
    · exact h.resetEngine.next
    · exact h.next
  | f i =>
    simp only [Machine.writeWord, writeFieldReg, h.beyond.fatal]
    split
    · exact h.next
    · exact (h.setReg i rfl rfl).next
  | status | err | errInfo | cfg | fbw | cromw => exact h.next

theorem State.SameMeaning.busWrite (h : s.SameMeaning s') (off : BitVec 12) (data : List Byte) :
    SameNext (Machine.busWrite off data s) (Machine.busWrite off data s') := by
  unfold Machine.busWrite
  split
  · exact h.writeWord _ _
  · exact (h.raise _ _).next

/-! ### Steps and runs -/

theorem State.SameMeaning.serve (h : s.SameMeaning s') (e : BusEvent) :
    SameNext (Machine.serve e s) (Machine.serve e s') := by
  cases e with
  | resetPin b => exact (h.driveReset b).next
  | read off size =>
    simp only [Machine.serve, h.beyond.resetLine]
    split
    · exact h.next
    · exact (h.busRead off size).next
  | write off data =>
    simp only [Machine.serve, h.beyond.resetLine]
    split
    · exact h.next
    · exact h.busWrite off data

theorem State.SameMeaning.step (h : s.SameMeaning s') : SameNext (Machine.step s) (Machine.step s') := by
  cases events : s.pending with
  | nil =>
    rw [step_idle events, step_idle (h.beyond.pending.trans events)]
    exact h.next
  | cons e rest =>
    rw [step_event events, step_event (h.beyond.pending.trans events)]
    exact (h.takeEvent rest).serve e

end

theorem run_succ_of_step {M : Host.Core} {s u : M.State} (h : M.step s = .next u) (n : Nat) :
    M.run (n + 1) s = M.run n u := by
  rw [Host.Core.run, h]

/-- Settles O16: by induction on the length of the runs, a step at a time. -/
theorem valueOnlySeenModuloP : Obligations.ValueOnlySeenModuloP := by
  intro n
  induction n with
  | zero =>
    intro s t s' t' h run run'
    injection run with run
    injection run' with run'
    subst run run'
    exact h
  | succ n ih =>
    intro s t s' t' h run run'
    obtain ⟨u, u', first, first', hu⟩ := h.step
    rw [run_succ_of_step (M := core) first] at run
    rw [run_succ_of_step (M := core) first'] at run'
    exact ih u t u' t' hu run run'

end Sys2Proof.Machine
end

section
/-! PROOFS. The register window of `20_memory.md`: its place on the bus (R50), its map and legal accesses (R51, R52),
and the byte lanes (R65). -/

namespace Sys2Proof.Machine

/-! ### The byte lanes -/

/-- The inverse of `wordBytes_of_wordOfBytes`. -/
@[simp] theorem wordOfBytes_wordBytes (w : Word) : wordOfBytes (wordBytes w) = some w := by
  refine congrArg some (BitVec.eq_of_toNat_eq ?_)
  simp only [BitVec.toNat_ofNat]
  omega

theorem getElem?_wordBytes (w : Word) {k : Nat} (h : k < 4) : (wordBytes w)[k]? = some (w.extractLsb' (8 * k) 8) := by
  have lane : BitVec.ofNat 8 (w.toNat / 2 ^ (8 * k)) = w.extractLsb' (8 * k) 8 := by
    rw [BitVec.extractLsb', Nat.shiftRight_eq_div_pow]
  rw [← lane]
  match k with
  | 0 => simp [wordBytes]
  | 1 | 2 | 3 => rfl

/-- Settles O58: the lanes are those bits, and `wordOfBytes` undoes `wordBytes`. -/
theorem littleEndianLanes : Obligations.LittleEndianLanes := fun w =>
  ⟨fun _ h => getElem?_wordBytes w h, wordOfBytes_wordBytes w⟩

/-- Exactly four bytes make a word. -/
theorem exists_wordOfBytes_iff (data : List Byte) : (∃ w, wordOfBytes data = some w) ↔ data.length = 4 := by
  constructor
  · rintro ⟨w, h⟩
    rw [wordBytes_of_wordOfBytes h]
    rfl
  · intro h
    obtain ⟨b0, b1, b2, b3, rfl⟩ := List.length_eq_four.1 h
    exact ⟨_, rfl⟩

/-! ### The map and the legal accesses -/

/-- The map of R51 is read off `WindowReg.offset`, for every offset. -/
theorem windowAt_eq_some_iff (off : BitVec 12) (r : WindowReg) : windowAt off = some r ↔ off.toNat = r.offset := by
  constructor
  · intro h
    unfold windowAt at h
    simp only at h
    repeat' split at h
    all_goals cases h
    all_goals
      simp only [WindowReg.offset]
      omega
  · intro h
    cases r with
    | cmd | status | err | errInfo | cfg | ctrl =>
      simp only [windowAt, h]
      rfl
    | f i | fbw i | cromw i =>
      rw [WindowReg.offset] at h
      simp only [windowAt]
      repeat rw [if_neg (by omega)]
      repeat rw [dif_neg (by omega)]
      rw [dif_pos (by omega)]
      congr
      omega

theorem readable_iff (r : WindowReg) : r.readable = true ↔ r ≠ .cmd ∧ r ≠ .ctrl := by
  cases r <;> simp [WindowReg.readable]

theorem writable_iff (r : WindowReg) : r.writable = true ↔ r = .cmd ∨ r = .ctrl ∨ ∃ i, r = .f i := by
  cases r <;> simp [WindowReg.writable]

theorem legalRead_eq_some_iff (off : BitVec 12) (size : Nat) (r : WindowReg) :
    legalRead off size = some r ↔ size = 4 ∧ off.toNat = r.offset ∧ r.readable = true := by
  unfold legalRead
  split
  · next four => rw [Option.filter_eq_some_iff, windowAt_eq_some_iff, and_iff_right four]
  · next other => simp [other]

theorem legalWrite_eq_some_iff (off : BitVec 12) (data : List Byte) (r : WindowReg) (w : Word) :
    legalWrite off data = some (r, w) ↔ off.toNat = r.offset ∧ r.writable = true ∧ wordOfBytes data = some w := by
  rw [← windowAt_eq_some_iff]
  constructor
  · exact legalWrite_some
  · rintro ⟨place, writable, word⟩
    have mapped : (windowAt off).filter WindowReg.writable = some r := Option.filter_eq_some_iff.2 ⟨place, writable⟩
    rw [legalWrite, mapped, word]

/-- Settles O53: the map at every offset, then the accesses its columns allow. -/
theorem windowMapAndLegalAccesses : Obligations.WindowMapAndLegalAccesses := by
  refine ⟨windowAt_eq_some_iff, fun off size r => ?_, fun off data r => ?_⟩
  · rw [legalRead_eq_some_iff, readable_iff]
  · simp only [legalWrite_eq_some_iff, writable_iff, exists_and_left, exists_wordOfBytes_iff]
    rw [← and_assoc, and_comm]

/-! ### The window on the bus -/

theorem windowOffset_of_mem {base addr : Nat} (low : base ≤ addr) (high : addr ≤ base + 4095) :
    windowOffset base addr = some (BitVec.ofNat 12 (addr - base)) :=
  if_pos ⟨low, Nat.lt_succ_of_le high⟩

theorem windowOffset_of_not_mem {base addr : Nat} (outside : addr < base ∨ base + 4095 < addr) :
    windowOffset base addr = none :=
  if_neg (by simp only [Config.windowBytes]; omega)

/-- Settles O59, by the offset of an address inside the window, and that there is none outside it. -/
theorem hostAccessReachesTheWindow : Obligations.HostAccessReachesTheWindow := by
  refine ⟨Nat.mul_mod_right _ _, fun addr n data s => ⟨fun low high => ?_, fun outside => ?_⟩⟩
  · refine ⟨BitVec.ofNat 12 (addr - Config.base), ?_, ?_, ?_⟩
    · rw [BitVec.toNat_ofNat]
      exact Nat.mod_eq_of_lt (by omega)
    · rw [hostRead, windowOffset_of_mem low high]
      rfl
    · rw [hostWrite, windowOffset_of_mem low high]
      rfl
  · rw [hostRead, hostWrite, windowOffset_of_not_mem outside]
    exact ⟨rfl, rfl⟩

end Sys2Proof.Machine
end

section
/-! PROOFS. What a bus access does, legal or not, with FATAL = 0 and with FATAL = 1 (`20_memory.md` R53 to R64). -/

namespace Sys2Proof.Machine

/-! ### A step that serves an access -/

@[simp] theorem readWord_takeEvent (r : WindowReg) (rest : List BusEvent) (s : State) :
    readWord r (takeEvent rest s) = readWord r s := by
  cases r <;> rfl

section

variable {s : State} {off : BitVec 12} {rest : List BusEvent}

/-- A legal read answers the register's word and changes nothing else (R68). -/
theorem step_read_legal (h : s.pending = .read off 4 :: rest) (line : s.resetLine = false) {r : WindowReg}
    (place : off.toNat = r.offset) (readable : r.readable = true) :
    step s = .next { takeEvent rest s with reply := some (wordBytes (readWord r s)) } := by
  have legal := (legalRead_eq_some_iff off 4 r).2 ⟨rfl, place, readable⟩
  rw [step_read h line, busRead, legal]
  simp only [readWord_takeEvent]

theorem step_read_illegal {size : Nat} (h : s.pending = .read off size :: rest) (line : s.resetLine = false)
    (illegal : legalRead off size = none) :
    step s = .next { raise .busAccess (accessInfo false off) (takeEvent rest s) with
      reply := some (poisonBytes size) } := by
  rw [step_read h line, busRead, illegal]

theorem step_write_legal {w : Word} (h : s.pending = .write off (wordBytes w) :: rest) (line : s.resetLine = false)
    {r : WindowReg} (place : off.toNat = r.offset) (writable : r.writable = true) :
    step s = writeWord r w (takeEvent rest s) := by
  have legal := (legalWrite_eq_some_iff off (wordBytes w) r w).2 ⟨place, writable, wordOfBytes_wordBytes w⟩
  rw [step_write h line, busWrite, legal]

theorem step_write_illegal {data : List Byte} (h : s.pending = .write off data :: rest) (line : s.resetLine = false)
    (illegal : legalWrite off data = none) :
    step s = .next (raise .busAccess (accessInfo true off) (takeEvent rest s)) := by
  rw [step_write h line, busWrite, illegal]

end

/-! ### Writes to CMD and CTRL -/

theorem writeCmd_of_fatal {s : State} (dead : s.fatal = true) (w : Word) : writeCmd w s = .next s :=
  if_pos dead

theorem writeCmd_of_ok {s : State} (alive : s.fatal = false) {w : Word} {i : Instr} (decoded : decodeWord w = .ok i) :
    writeCmd w s = exec i s := by
  simp [writeCmd, alive, decoded]

/-- Settles O6: CMD is at offset 0, and a word written there is run unless the engine is dead. -/
theorem stepRunsDecodedCommand : Obligations.StepRunsDecodedCommand := by
  intro s w rest i h line decoded
  rw [step_write_legal h line (r := .cmd) rfl rfl]
  exact ⟨fun alive => writeCmd_of_ok (s := takeEvent rest s) alive decoded,
    fun dead => writeCmd_of_fatal (s := takeEvent rest s) dead w⟩

/-- `SRST` is bit 0 of the word (R58). -/
theorem writeCtrl_eq (w : Word) (s : State) : writeCtrl w s = if w.getLsbD 0 then resetEngine s else s := by
  have bit : w.getLsbD 0 = decide (w.toNat % 2 = 1) := Nat.testBit_zero w.toNat
  simp only [writeCtrl, bit, decide_eq_true_eq]

/-- Settles O46: CTRL is at offset 0x014, and only bit 0 of the word written counts. -/
theorem softResetFromEveryState : Obligations.SoftResetFromEveryState := by
  intro s w rest h line
  rw [step_write_legal h line (r := .ctrl) rfl rfl, writeWord, writeCtrl_eq]
  constructor
  · intro set
    rw [set, if_pos rfl, resetEngine, takeEvent_resetLine, line]
    rfl
  · intro clear
    rw [clear, if_neg Bool.false_ne_true]

/-! ### Legal reads and writes of the other registers -/

/-- Settles O54, register by register; the ROM has an entry at each of the 356 indices. -/
theorem registerReadsReturnTheirWords : Obligations.RegisterReadsReturnTheirWords := by
  intro s off rest h line
  refine ⟨?_, ?_, ?_, ?_, fun k hk place => ?_⟩
  · rintro rfl
    exact step_read_legal h line (r := .status) rfl rfl
  · rintro rfl
    rw [step_read_legal h line (r := .err) rfl rfl, readWord, BitVec.ofNat_toNat]
  · rintro rfl
    exact step_read_legal h line (r := .errInfo) rfl rfl
  · rintro rfl
    exact step_read_legal h line (r := .cfg) rfl rfl
  · obtain ⟨w, entry⟩ := Option.isSome_iff_exists.1 ((cromAt_isSome s.rc k).trans (decide_eq_true hk))
    refine ⟨w, entry, ?_⟩
    rw [step_read_legal h line (r := .cromw ⟨k, hk⟩) place rfl, readWord, entry, Option.getD_some]

theorem dataWord_of_not_fatal {s : State} (alive : s.fatal = false) (v : Nat) : dataWord s v = BitVec.ofNat 32 v := by
  simp [dataWord, alive]

theorem dataWord_of_fatal {s : State} (dead : s.fatal = true) (v : Nat) : dataWord s v = Config.poison :=
  if_pos dead

theorem writeFieldReg_of_not_fatal {s : State} (alive : s.fatal = false) (i : FReg) (w : Word) :
    writeFieldReg i w s = s.setReg i ⟨w.toNat, 32⟩ := by
  simp [writeFieldReg, alive]

/-- Settles O55: with FATAL = 0 a write to `F[i]` is `setReg`, and data reads are not poisoned. -/
theorem fieldRegisterReadsAndWrites : Obligations.FieldRegisterReadsAndWrites := by
  intro s off rest i line alive
  refine ⟨fun w h place => ?_, fun h place => ?_, fun h place => ?_⟩
  · refine ⟨(takeEvent rest s).setReg i ⟨w.toNat, 32⟩, ?_, reg_setReg_same _ _ _, onlyRegs_setReg _ _ _⟩
    rw [step_write_legal h line (r := .f i) place rfl, writeWord,
      writeFieldReg_of_not_fatal (s := takeEvent rest s) alive]
  · rw [step_read_legal h line (r := .f i) place rfl, readWord, dataWord_of_not_fatal alive, State.canon, toFp_val]
  · rw [step_read_legal h line (r := .fbw i) place rfl, readWord, dataWord_of_not_fatal alive]

/-! ### Illegal accesses -/

theorem accessInfo_eq_ofNat (isWrite : Bool) (off : BitVec 12) :
    accessInfo isWrite off = BitVec.ofNat 32 (off.toNat + if isWrite then 2 ^ 31 else 0) := by
  rw [← accessInfo_toNat, BitVec.ofNat_toNat, BitVec.setWidth_eq]

/-- Settles O56: an illegal access raises, and with FATAL = 0 raising takes effect. -/
theorem illegalAccessRaisesBusAccess : Obligations.IllegalAccessRaisesBusAccess := by
  intro s off rest line alive
  have taken : (takeEvent rest s).fatal = false := alive
  refine ⟨fun size h illegal => ?_, fun data h illegal => ?_, rfl⟩
  · rw [step_read_illegal h line illegal, raise_of_not_fatal taken, accessInfo_eq_ofNat]
    rfl
  · rw [step_write_illegal h line illegal, raise_of_not_fatal taken, accessInfo_eq_ofNat, Nat.add_comm]
    rfl

/-! ### A dead engine -/

/-- While FATAL = 1 a write acts on CTRL alone (R64). -/
theorem writeWord_of_fatal {s : State} (dead : s.fatal = true) {r : WindowReg} (other : r ≠ .ctrl) (w : Word) :
    writeWord r w s = .next s := by
  cases r with
  | cmd => exact writeCmd_of_fatal dead w
  | ctrl => exact absurd rfl other
  | f i => exact congrArg Host.Outcome.next (if_pos dead)
  | status | err | errInfo | cfg | fbw | cromw => rfl

theorem busWrite_of_fatal {s : State} (dead : s.fatal = true) {off : BitVec 12} {data : List Byte}
    (other : off ≠ 0x014 ∨ data.length ≠ 4) : busWrite off data s = .next s := by
  unfold busWrite
  split
  · next r w legal =>
    obtain ⟨place, -, word⟩ := legalWrite_some legal
    refine writeWord_of_fatal dead ?_ w
    rintro rfl
    obtain elsewhere | size := other
    · exact elsewhere (windowAt_ctrl place)
    · exact size ((exists_wordOfBytes_iff data).1 ⟨w, word⟩)
  · rw [raise_of_fatal dead]

/-- Settles O57: data reads and illegal reads are poisoned, and the first error stays whatever is accessed. -/
theorem accessesWhileFatal : Obligations.AccessesWhileFatal := by
  intro s off rest line dead
  have taken : (takeEvent rest s).fatal = true := dead
  refine ⟨fun i h place => ?_, fun size h illegal => ?_, fun data h other => ?_⟩
  · obtain value | width := place
    · rw [step_read_legal h line (r := .f i) value rfl, readWord, dataWord_of_fatal dead]
    · rw [step_read_legal h line (r := .fbw i) width rfl, readWord, dataWord_of_fatal dead]
  · rw [step_read_illegal h line illegal, raise_of_fatal taken, poisonBytes]
  · rw [step_write h line, busWrite_of_fatal taken other]

end Sys2Proof.Machine
end

section
/-! PROOFS. The command words of `30_encoding.md`: what decodes and to what (R89 to R96), and where an encoding puts its
fields (R90). -/

namespace Sys2Proof.Machine

/-! ### Decoding and encoding -/

/-- The converse of `decodeWord_of_toNat`: the number is the opcode over the fields, the must-be-zero bits being 0. -/
theorem toNat_of_decodeWord {w : Word} {i : Instr} (h : decodeWord w = .ok i) :
    w.toNat = i.opcode * 2 ^ 26 + i.operandBits := by
  unfold decodeWord at h
  split at h
  case h_16 => cases h
  all_goals
    next op =>
      obtain ⟨zero, -, rfl⟩ := checkWord_eq_ok.1 h
      rw [fieldOp_eq] at op
      rw [bitField] at zero
      simp only [Instr.opcode, Instr.operandBits, fieldRd_val, fieldRa_val, fieldRb_val, fieldCidx_val, fieldRow_val]
      omega

theorem encode_of_decodeWord {w : Word} {i : Instr} (h : decodeWord w = .ok i) : encode i = w := by
  rw [encode, ← toNat_of_decodeWord h, BitVec.ofNat_toNat, BitVec.setWidth_eq]

/-- Settles O1: each direction is a lemma, and a word is the encoding of what it decodes to. -/
theorem decodeEncodeRoundTrip : Obligations.DecodeEncodeRoundTrip := by
  refine ⟨fun i legal => decodeWord_encode legal, fun w i h => ⟨wf_of_decodeWord h, encode_of_decodeWord h⟩, ?_⟩
  intro w w' i h h'
  rw [← encode_of_decodeWord h, encode_of_decodeWord h']

/-! ### The opcode map -/

/-- A row of the opcode map by what its mask and match stand for: the opcode, and the `len` must-be-zero bits from bit
`lo` up (`30_encoding.md` R89, R92). -/
def rowOfFields (mnemonic : String) (op lo len : Nat) (limit : OperandLimit) : OpcodeRow :=
  ⟨mnemonic, BitVec.ofNat 32 (2 ^ 26 * op), BitVec.ofNat 32 (2 ^ 26 * (2 ^ 6 - 1) + 2 ^ lo * (2 ^ len - 1)), limit⟩

theorem rowOfFields_mnemonic (mnemonic : String) (op lo len : Nat) (limit : OperandLimit) :
    (rowOfFields mnemonic op lo len limit).mnemonic = mnemonic := rfl

theorem opcodeMap_eq : opcodeMap =
    [rowOfFields "FLDC" 0x01 9 12 .cidxUpTo355, rowOfFields "FADD" 0x02 0 11 .anyOperand,
      rowOfFields "FMULC" 0x03 9 7 .cidxUpTo355, rowOfFields "FMUL" 0x04 0 11 .anyOperand,
      rowOfFields "FRED" 0x05 0 16 .anyOperand, rowOfFields "SBOX" 0x08 0 16 .anyOperand,
      rowOfFields "SBOXF" 0x09 0 26 .anyOperand, rowOfFields "SBOXP" 0x0A 0 26 .anyOperand,
      rowOfFields "ARCF" 0x0C 5 21 .rowUpTo20, rowOfFields "ARCP" 0x0D 5 21 .rowUpTo20,
      rowOfFields "MEXT" 0x10 0 26 .anyOperand, rowOfFields "MINT" 0x11 0 26 .anyOperand,
      rowOfFields "RNDF" 0x14 5 21 .rowUpTo20, rowOfFields "RNDP" 0x15 5 21 .rowUpTo20,
      rowOfFields "PERM" 0x18 0 26 .anyOperand] := by decide

/-- A mask of `len` ones from bit `lo` up keeps that field in its place. -/
theorem and_fieldMask (n lo len : Nat) : n &&& 2 ^ lo * (2 ^ len - 1) = 2 ^ lo * (n / 2 ^ lo % 2 ^ len) := by
  rw [← Nat.and_two_pow_sub_one_eq_mod]
  apply Nat.eq_of_testBit_eq
  intro i
  simp only [Nat.testBit_and, Nat.testBit_two_pow_mul, Nat.testBit_div_two_pow]
  by_cases low : lo ≤ i
  · simp [low]
  · simp [low]

theorem field_lt {lo len v : Nat} (below : lo + len ≤ 26) (hv : v < 2 ^ len) : 2 ^ lo * v < 2 ^ 26 :=
  calc 2 ^ lo * v < 2 ^ lo * 2 ^ len := Nat.mul_lt_mul_of_pos_left hv (Nat.two_pow_pos lo)
    _ = 2 ^ (lo + len) := (Nat.pow_add ..).symm
    _ ≤ 2 ^ 26 := Nat.pow_le_pow_right two_pos below

/-- The mask of the opcode over the mask of a lower field keeps the two fields side by side. -/
theorem and_opcodeAndFieldMask (n : Nat) {lo len : Nat} (below : lo + len ≤ 26) :
    n &&& 2 ^ 26 * (2 ^ 6 - 1) + 2 ^ lo * (2 ^ len - 1) =
      2 ^ 26 * (n / 2 ^ 26 % 2 ^ 6) + 2 ^ lo * (n / 2 ^ lo % 2 ^ len) := by
  have ones := field_lt below (Nat.sub_lt (Nat.two_pow_pos len) one_pos)
  have kept := field_lt below (Nat.mod_lt (n / 2 ^ lo) (Nat.two_pow_pos len))
  rw [Nat.two_pow_add_eq_or_of_lt ones, Nat.and_or_distrib_left, and_fieldMask, and_fieldMask,
    ← Nat.two_pow_add_eq_or_of_lt kept]

/-- `w & mask = match` compares the opcode and asks for zeros in the must-be-zero bits. -/
theorem rowOfFields_spells {op lo len : Nat} (six : op < 64) (below : lo + len ≤ 26) (mnemonic : String)
    (limit : OperandLimit) (w : Word) : (rowOfFields mnemonic op lo len limit).spells w ↔
      fieldOp w = op ∧ bitField w lo len = 0 ∧ limit.allows w := by
  have ones := field_lt below (Nat.sub_lt (Nat.two_pow_pos len) one_pos)
  have kept := field_lt below (Nat.mod_lt (w.toNat / 2 ^ lo) (Nat.two_pow_pos len))
  have zero : 2 ^ lo * (w.toNat / 2 ^ lo % 2 ^ len) = 0 ↔ bitField w lo len = 0 := by simp [bitField]
  have sides : w &&& (rowOfFields mnemonic op lo len limit).mask = (rowOfFields mnemonic op lo len limit).matchBits ↔
      fieldOp w = op ∧ bitField w lo len = 0 := by
    rw [← BitVec.toNat_inj, rowOfFields, BitVec.toNat_and, BitVec.toNat_ofNat, BitVec.toNat_ofNat,
      Nat.mod_eq_of_lt (by omega), Nat.mod_eq_of_lt (by omega), and_opcodeAndFieldMask _ below, ← zero, fieldOp,
      bitField]
    omega
  change _ ∧ limit.allows w ↔ _
  rw [sides, and_assoc]

/-! ### The operands' limits -/

theorem allows_anyOperand (w : Word) : OperandLimit.anyOperand.allows w := trivial

theorem fieldCidx_lt_iff (w : Word) : (fieldCidx w).val < Config.cromSize ↔ OperandLimit.cidxUpTo355.allows w := by
  rw [fieldCidx_val, OperandLimit.allows, bitField, Config.cromSize]
  omega

theorem fieldRow_lt_iff (w : Word) : (fieldRow w).val < 21 ↔ OperandLimit.rowUpTo20.allows w := by
  rw [fieldRow_val, OperandLimit.allows, bitField]
  omega

theorem exists_checkWord_eq_ok (mbz : Nat) (i : Instr) (m : String) :
    (∃ j, checkWord mbz i = .ok j ∧ j.mnemonic = m) ↔ i.mnemonic = m ∧ mbz = 0 ∧ i.wf = true := by
  simp only [checkWord_eq_ok]
  constructor
  · rintro ⟨_, ⟨zero, legal, rfl⟩, rfl⟩
    exact ⟨rfl, zero, legal⟩
  · rintro ⟨rfl, zero, legal⟩
    exact ⟨i, ⟨zero, legal, rfl⟩, rfl⟩

/-- Settles O2: the decoder's checks after an opcode are those of the one row with that opcode. -/
theorem decodeFollowsOpcodeMap : Obligations.DecodeFollowsOpcodeMap := by
  intro w m
  simp only [opcodeMap_eq, List.mem_cons, List.not_mem_nil, or_false, exists_eq_or_imp, exists_eq_left,
    rowOfFields_mnemonic, rowOfFields_spells, Nat.reduceLT, Nat.reduceAdd, Nat.reduceLeDiff]
  unfold decodeWord
  split
  -- An unassigned opcode is the opcode of no row.
  case h_16 => simp_all
  all_goals
    next op =>
      rw [exists_checkWord_eq_ok]
      simp [op, Instr.wf, Instr.mnemonic, fieldCidx_lt_iff, fieldRow_lt_iff, allows_anyOperand]

/-! ### The encoding formulas, format by format -/

theorem ofNat_field (v k : Nat) : BitVec.ofNat 32 (v * 2 ^ k) = BitVec.ofNat 32 v <<< k :=
  BitVec.eq_of_toNat_eq (by simp [Nat.shiftLeft_eq])

/-- A field at bit `k` over bits below `k`: the sum of `encode` is the rule's `|`. -/
theorem ofNat_field_add {k low : Nat} (v : Nat) (below : low < 2 ^ k) :
    BitVec.ofNat 32 (v * 2 ^ k + low) = (BitVec.ofNat 32 v <<< k) ||| BitVec.ofNat 32 low := by
  rw [Nat.mul_comm, Nat.two_pow_add_eq_or_of_lt below, BitVec.ofNat_or, Nat.mul_comm, ofNat_field]

theorem formatR3_eq (op : Nat) (rd ra rb : FReg) :
    BitVec.ofNat 32 (op * 2 ^ 26 + (rd.val * 2 ^ 21 + ra.val * 2 ^ 16 + rb.val * 2 ^ 11)) =
      (BitVec.ofNat 32 op <<< 26) ||| (BitVec.ofNat 32 rd.val <<< 21) ||| (BitVec.ofNat 32 ra.val <<< 16)
        ||| (BitVec.ofNat 32 rb.val <<< 11) := by
  rw [Nat.add_assoc, ofNat_field_add _ (by omega), ofNat_field_add _ (by omega), ofNat_field_add _ (by omega),
    ofNat_field, BitVec.or_assoc, BitVec.or_assoc]

theorem formatR2_eq (op : Nat) (rd ra : FReg) :
    BitVec.ofNat 32 (op * 2 ^ 26 + (rd.val * 2 ^ 21 + ra.val * 2 ^ 16)) =
      (BitVec.ofNat 32 op <<< 26) ||| (BitVec.ofNat 32 rd.val <<< 21) ||| (BitVec.ofNat 32 ra.val <<< 16) := by
  rw [ofNat_field_add _ (by omega), ofNat_field_add _ (by omega), ofNat_field, BitVec.or_assoc]

theorem formatC2_eq (op : Nat) (rd ra : FReg) (c : CIdx) :
    BitVec.ofNat 32 (op * 2 ^ 26 + (rd.val * 2 ^ 21 + ra.val * 2 ^ 16 + c.val)) =
      (BitVec.ofNat 32 op <<< 26) ||| (BitVec.ofNat 32 rd.val <<< 21) ||| (BitVec.ofNat 32 ra.val <<< 16)
        ||| BitVec.ofNat 32 c.val := by
  rw [Nat.add_assoc, ofNat_field_add _ (by omega), ofNat_field_add _ (by omega), ofNat_field_add _ (by omega),
    BitVec.or_assoc, BitVec.or_assoc]

theorem formatC1_eq (op : Nat) (rd : FReg) (c : CIdx) :
    BitVec.ofNat 32 (op * 2 ^ 26 + (rd.val * 2 ^ 21 + c.val)) =
      (BitVec.ofNat 32 op <<< 26) ||| (BitVec.ofNat 32 rd.val <<< 21) ||| BitVec.ofNat 32 c.val := by
  rw [ofNat_field_add _ (by omega), ofNat_field_add _ (by omega), BitVec.or_assoc]

theorem formatK_eq (op : Nat) (r : RowField) :
    BitVec.ofNat 32 (op * 2 ^ 26 + r.val) = (BitVec.ofNat 32 op <<< 26) ||| BitVec.ofNat 32 r.val :=
  ofNat_field_add op (by omega)

theorem formatZ_eq (op : Nat) : BitVec.ofNat 32 (op * 2 ^ 26 + 0) = BitVec.ofNat 32 op <<< 26 := by
  rw [Nat.add_zero, ofNat_field]

/-- Settles O3: each command by its format. -/
theorem encodePlacesTheFields : Obligations.EncodePlacesTheFields :=
  ⟨formatC1_eq 0x01, formatR3_eq 0x02, formatC2_eq 0x03, formatR3_eq 0x04, formatR2_eq 0x05, formatR2_eq 0x08,
    formatZ_eq 0x09, formatZ_eq 0x0A, formatK_eq 0x0C, formatK_eq 0x0D, formatZ_eq 0x10, formatZ_eq 0x11,
    formatK_eq 0x14, formatK_eq 0x15, formatZ_eq 0x18⟩

/-- Settles O4: by running the decoder on the words. -/
theorem sampleWordsDecode : Obligations.SampleWordsDecode := by
  unfold Obligations.SampleWordsDecode
  decide

/-! ### Illegal words -/

theorem writeCmd_of_error {s : State} (alive : s.fatal = false) {w : Word} {reason : Reject}
    (refused : decodeWord w = .error reason) : writeCmd w s = .next (s.raised .illegalCmd w) := by
  simp [writeCmd, alive, refused, raise_of_not_fatal]

/-- Settles O5: the word reaches CMD at offset 0, and with FATAL = 0 raising takes effect. -/
theorem illegalWordRaisesIllegalCmd : Obligations.IllegalWordRaisesIllegalCmd := by
  refine ⟨?_, rfl, ⟨.unassignedOpcode, by decide⟩, ⟨.unassignedOpcode, by decide⟩⟩
  intro s w rest reason h line alive refused
  rw [step_write_legal h line (r := .cmd) rfl rfl]
  exact writeCmd_of_error (s := takeEvent rest s) alive refused

end Sys2Proof.Machine
end

section
/-! PROOFS. The field unit (`40_field_unit.md`): what each command writes (R122 to R127), and that the width of its
result depends on widths only and the element on elements only. -/

namespace Sys2Proof.Machine

/-! ### A producer's end -/

theorem raise_fatal (c : ErrCode) (w : Word) (s : State) : (raise c w s).fatal = true := by
  unfold raise
  split
  · assumption
  · rfl

/-- A producer that completes without error had FATAL = 0 and a result that fits, and wrote it. -/
theorem produce_of_alive {i : Instr} {rd : FReg} {r : FieldReg} {s : State} (alive : (produce i rd r s).fatal = false) :
    s.fatal = false ∧ r.bw ≤ 256 ∧ produce i rd r s = s.setReg rd r := by
  by_cases fits : r.bw ≤ 256
  · have written := produce_of_fits fits i rd s
    exact ⟨by rwa [written] at alive, fits, written⟩
  · rw [produce_of_tooWide (Nat.not_le.1 fits), raise_fatal] at alive
    cases alive

/-- The two outcomes of a producer (`40_field_unit.md` R114). -/
theorem produce_outcomes (i : Instr) (rd : FReg) (v width : Nat) (s : State) :
    (width ≤ 256 → ∃ t, (Host.Outcome.next (produce i rd ⟨v, width⟩ s) : Result) = .next t ∧ t.reg rd = ⟨v, width⟩ ∧
      s.OnlyRegs (· = rd) t) ∧
    (256 < width → s.fatal = false →
      (Host.Outcome.next (produce i rd ⟨v, width⟩ s) : Result) = .next (s.raised .arithOverflow (encode i))) := by
  constructor
  · intro fits
    rw [produce_of_fits fits]
    exact ⟨_, rfl, reg_setReg_same _ _ _, onlyRegs_setReg _ _ _⟩
  · intro wide alive
    rw [produce_of_tooWide wide, raise_of_not_fatal alive]

/-- What a producer that completes leaves. -/
theorem produce_denotes {i : Instr} {rd : FReg} {r : FieldReg} {s t : State} (alive : t.fatal = false)
    (run : (Host.Outcome.next (produce i rd r s) : Result) = .next t) :
    t.canon rd = toFp r.val ∧ s.OnlyRegs (· = rd) t := by
  injection run with run
  subst run
  obtain ⟨-, -, written⟩ := produce_of_alive alive
  rw [written]
  exact ⟨canon_setReg_same s rd r, onlyRegs_setReg s rd r⟩

/-! ### The commands -/

theorem exists_constant (rc : RcTable) {c : CIdx} (legal : cidxLegal c = true) : ∃ w, cromAt rc c.val = some w :=
  Option.isSome_iff_exists.1 ((cromAt_isSome rc c.val).trans legal)

theorem exec_fldc {s : State} {c : CIdx} {w : Word} (entry : cromAt s.rc c.val = some w) (rd : FReg) :
    exec (.fldc rd c) s = .next (s.setReg rd ⟨w.toNat, 31⟩) := by
  rw [exec, execFldc, withConstant_of_some entry]

theorem exec_fadd (rd ra rb : FReg) (s : State) : exec (.fadd rd ra rb) s =
    .next (produce (.fadd rd ra rb) rd ⟨(s.reg ra).val + (s.reg rb).val, max (s.reg ra).bw (s.reg rb).bw + 1⟩ s) := rfl

theorem exec_fmulc {s : State} {c : CIdx} {w : Word} (entry : cromAt s.rc c.val = some w) (rd ra : FReg) :
    exec (.fmulc rd ra c) s =
      .next (produce (.fmulc rd ra c) rd ⟨(s.reg ra).val * w.toNat, (s.reg ra).bw + bitlen w.toNat⟩ s) := by
  rw [exec, execFmulc, withConstant_of_some entry, mulConstWidth]

theorem exec_fmul (rd ra rb : FReg) (s : State) : exec (.fmul rd ra rb) s =
    .next (produce (.fmul rd ra rb) rd ⟨(s.reg ra).val * (s.reg rb).val, (s.reg ra).bw + (s.reg rb).bw⟩ s) := rfl

theorem exec_fred (rd ra : FReg) (s : State) : exec (.fred rd ra) s = .next (s.setReg rd (reduced (s.canon ra))) := rfl

/-- Settles O9. -/
theorem fldcLoadsConstant : Obligations.FldcLoadsConstant := by
  intro rd c s bound
  obtain ⟨w, entry⟩ := exists_constant s.rc (c := c) (decide_eq_true (Nat.lt_succ_of_le bound))
  exact ⟨w, _, entry, exec_fldc entry rd, reg_setReg_same _ _ _, onlyRegs_setReg _ _ _⟩

/-- Settles O10: FADD ends as a producer does. -/
theorem faddWritesExactSum : Obligations.FaddWritesExactSum := by
  intro rd ra rb s
  rw [exec_fadd]
  exact produce_outcomes _ rd _ _ s

/-- Settles O11: FMULC ends as a producer does, with the constant that a legal `cidx` names. -/
theorem fmulcWritesExactProduct : Obligations.FmulcWritesExactProduct := by
  intro rd ra c s bound
  obtain ⟨w, entry⟩ := exists_constant s.rc (c := c) (decide_eq_true (Nat.lt_succ_of_le bound))
  rw [exec_fmulc entry]
  exact ⟨w, entry, produce_outcomes _ rd _ _ s⟩

/-- Settles O12: FMUL ends as a producer does. -/
theorem fmulWritesExactProduct : Obligations.FmulWritesExactProduct := by
  intro rd ra rb s
  rw [exec_fmul]
  exact produce_outcomes _ rd _ _ s

/-! ### FRED -/

theorem reduced_of_canonical {r : FieldReg} (h : r.Canonical) : reduced (toFp r.val) = r := by
  obtain ⟨canonical, width⟩ := h
  simp only [reduced, toFp_val, Nat.mod_eq_of_lt canonical, Config.bwCanon, ← width]

theorem setReg_reg_self (s : State) (i : FReg) : s.setReg i (s.reg i) = s := by
  refine State.ext_reg (fun j => ?_) (by constructor <;> rfl)
  rw [reg_setReg]
  split
  · next same => rw [same]
  · rfl

/-- Reducing a canonical register in place changes nothing. -/
theorem exec_fred_self_of_canonical {s : State} {x : FReg} (h : (s.reg x).Canonical) :
    exec (.fred x x) s = .next s := by
  rw [exec_fred, State.canon, reduced_of_canonical h, setReg_reg_self]

/-- Settles O13: what FRED writes is canonical, and a canonical value is its own reduction. -/
theorem fredWritesCanonicalValue : Obligations.FredWritesCanonicalValue := by
  intro rd ra s
  have written := reg_setReg_same s rd (reduced (s.canon ra))
  have canonical : ((s.setReg rd (reduced (s.canon ra))).reg rd).Canonical := by
    rw [written]
    exact reduced_canonical _
  refine ⟨_, exec_fred rd ra s, written, onlyRegs_setReg _ _ _, fun h => written.trans (reduced_of_canonical h), ?_⟩
  rw [execSeq_cons (exec_fred rd ra s), execSeq_cons (exec_fred_self_of_canonical canonical), execSeq]

/-- Settles O14: the value a command writes is the integer operation, and `toFp` is a homomorphism. -/
theorem fieldUnitDenotesFieldOperation : Obligations.FieldUnitDenotesFieldOperation := by
  intro s t _ alive
  refine ⟨fun rd c w entry run => ?_, fun rd ra rb run => ?_, fun rd ra c w entry run => ?_, fun rd ra rb run => ?_,
    fun rd ra run => ?_⟩
  · rw [exec_fldc entry] at run
    injection run with run
    subst run
    rw [canon_setReg_same]
    exact ⟨rfl, onlyRegs_setReg _ _ _⟩
  · rw [exec_fadd] at run
    have denotes := produce_denotes alive run
    rwa [toFp_add] at denotes
  · rw [exec_fmulc entry] at run
    have denotes := produce_denotes alive run
    rwa [toFp_mul] at denotes
  · rw [exec_fmul] at run
    have denotes := produce_denotes alive run
    rwa [toFp_mul] at denotes
  · rw [exec_fred] at run
    injection run with run
    subst run
    rw [canon_setReg_same, reduced_val, toFp_val_self]
    exact ⟨rfl, onlyRegs_setReg _ _ _⟩

/-! ### All five commands at once -/

/-- `i` ends as a producer of `result` in `F[rd]`. The result's width depends on the widths only, and grows with them;
its element depends on the elements only. FLDC and FRED are of this form with width 31, which always fits. -/
structure Computes (i : Instr) (rd : FReg) (result : State → FieldReg) : Prop where
  run : ∀ s, exec i s = .next (produce i rd (result s) s)
  width : ∀ {u s : State}, u.rc = s.rc → (∀ j, (u.reg j).bw ≤ (s.reg j).bw) → (result u).bw ≤ (result s).bw
  element : ∀ {u s : State}, u.rc = s.rc → (∀ j, u.canon j = s.canon j) → toFp (result u).val = toFp (result s).val

/-- The word a `cidx` names; any word where there is none. -/
def constantWord (rc : RcTable) (c : CIdx) : Word := (cromAt rc c.val).getD 0

theorem cromAt_eq_constantWord (rc : RcTable) {c : CIdx} (legal : cidxLegal c = true) :
    cromAt rc c.val = some (constantWord rc c) := by
  obtain ⟨w, entry⟩ := exists_constant rc legal
  rw [constantWord, entry, Option.getD_some]

theorem exists_computes {i : Instr} (legal : i.wf = true) (unit : IsFieldUnit i) :
    ∃ rd result, Computes i rd result := by
  cases i with
  | fldc rd c =>
    refine ⟨rd, fun s => ⟨(constantWord s.rc c).toNat, 31⟩, fun s => ?_, fun _ _ => le_rfl, fun rc _ => ?_⟩
    · rw [exec_fldc (cromAt_eq_constantWord s.rc legal), produce_of_fits (by show 31 ≤ 256; decide)]
    · simp only [rc]
  | fadd rd ra rb =>
    refine ⟨rd, _, exec_fadd rd ra rb, fun _ bw => ?_, fun _ canon => ?_⟩
    · exact Nat.succ_le_succ (max_le_max (bw ra) (bw rb))
    · simp only [toFp_add]
      exact congrArg₂ _ (canon ra) (canon rb)
  | fmulc rd ra c =>
    refine ⟨rd, _, fun s => exec_fmulc (cromAt_eq_constantWord s.rc legal) rd ra, fun rc bw => ?_, fun rc canon => ?_⟩
    · simp only [rc]
      exact Nat.add_le_add_right (bw ra) _
    · simp only [toFp_mul, rc]
      exact congrArg (· * _) (canon ra)
  | fmul rd ra rb =>
    refine ⟨rd, _, exec_fmul rd ra rb, fun _ bw => ?_, fun _ canon => ?_⟩
    · exact Nat.add_le_add (bw ra) (bw rb)
    · simp only [toFp_mul]
      exact congrArg₂ _ (canon ra) (canon rb)
  | fred rd ra =>
    refine ⟨rd, fun s => reduced (s.canon ra), fun s => ?_, fun _ _ => le_rfl, fun _ canon => ?_⟩
    · rw [exec_fred, produce_of_fits (by show 31 ≤ 256; decide)]
    · simp only [canon]
  | _ => exact unit.elim

end Sys2Proof.Machine
end

section
/-! PROOFS. Inserting `FRED x, x` (`40_field_unit.md` R121): a run from the narrower registers follows the run without
it, command by command. -/

namespace Sys2Proof.Machine

/-! ### Sequences of commands -/

theorem execSeq_cons_eq_next_iff (i : Instr) (rest : List Instr) (s t : State) :
    execSeq (i :: rest) s = .next t ↔ ∃ m, exec i s = .next m ∧ execSeq rest m = .next t := by
  obtain ⟨m, run, -⟩ := exec_next i s
  rw [execSeq_cons run, run]
  simp

theorem execSeq_append_eq_next_iff (before after : List Instr) (s t : State) :
    execSeq (before ++ after) s = .next t ↔ ∃ m, execSeq before s = .next m ∧ execSeq after m = .next t := by
  induction before generalizing s with
  | nil => simp [execSeq]
  | cons i rest ih =>
    simp only [List.cons_append, execSeq_cons_eq_next_iff, ih]
    constructor
    · rintro ⟨k, run, m, runs, last⟩
      exact ⟨m, ⟨k, run, runs⟩, last⟩
    · rintro ⟨m, ⟨k, run, runs⟩, last⟩
      exact ⟨k, run, m, runs, last⟩

/-- Only reset leaves the fatal state: a sequence that ends with FATAL = 0 began with FATAL = 0. -/
theorem alive_of_execSeq {l : List Instr} (units : ∀ i ∈ l, IsFieldUnit i ∧ i.wf = true) {s t : State}
    (runs : execSeq l s = .next t) (alive : t.fatal = false) : s.fatal = false := by
  induction l generalizing s with
  | nil =>
    injection runs with runs
    rwa [runs]
  | cons i rest ih =>
    obtain ⟨⟨unit, legal⟩, restUnits⟩ := List.forall_mem_cons.1 units
    obtain ⟨m, run, runs⟩ := (execSeq_cons_eq_next_iff i rest s t).1 runs
    have aliveNext := ih restUnits runs
    obtain ⟨rd, result, computes⟩ := exists_computes legal unit
    rw [computes.run] at run
    injection run with run
    subst run
    obtain ⟨aliveFirst, -, -⟩ := produce_of_alive aliveNext
    exact aliveFirst

theorem State.Inv.execSeq {l : List Instr} (units : ∀ i ∈ l, IsFieldUnit i ∧ i.wf = true) {s t : State} (h : s.Inv)
    (runs : Machine.execSeq l s = .next t) (alive : t.fatal = false) : t.Inv := by
  induction l generalizing s with
  | nil =>
    injection runs with runs
    rwa [← runs]
  | cons i rest ih =>
    have aliveFirst := alive_of_execSeq units runs alive
    obtain ⟨⟨-, legal⟩, restUnits⟩ := List.forall_mem_cons.1 units
    obtain ⟨m, run, runs⟩ := (execSeq_cons_eq_next_iff i rest s t).1 runs
    exact ih restUnits (h.exec aliveFirst legal run) runs

/-! ### Narrower registers -/

/-- `u` denotes what `s` denotes, in registers no wider. -/
structure State.Narrows (u s : State) : Prop where
  canon : ∀ j : FReg, u.canon j = s.canon j
  bw : ∀ j : FReg, (u.reg j).bw ≤ (s.reg j).bw
  rc : u.rc = s.rc
  fatal : u.fatal = s.fatal

theorem State.Narrows.refl (s : State) : s.Narrows s := ⟨fun _ => rfl, fun _ => le_rfl, rfl, rfl⟩

theorem State.Narrows.setReg {u s : State} (h : u.Narrows s) (i : FReg) {r r' : FieldReg}
    (element : toFp r.val = toFp r'.val) (width : r.bw ≤ r'.bw) : (u.setReg i r).Narrows (s.setReg i r') where
  canon j := by
    by_cases same : j = i
    · subst same
      rw [canon_setReg_same, canon_setReg_same, element]
    · rw [canon_setReg_other _ _ same, canon_setReg_other _ _ same, h.canon]
  bw j := by
    rw [reg_setReg, reg_setReg]
    split
    · exact width
    · exact h.bw j
  rc := h.rc
  fatal := h.fatal

/-- `FRED x, x` narrows: by the invariant no register is below the width 31 of a reduced one. -/
theorem State.Inv.fred_narrows {s : State} (h : s.Inv) (x : FReg) : (s.setReg x (reduced (s.canon x))).Narrows s := by
  obtain ⟨-, width, -⟩ := h.regsOk x
  have narrowed := (State.Narrows.refl s).setReg x (r := reduced (s.canon x)) (r' := s.reg x) (toFp_val_self _) width
  rwa [setReg_reg_self] at narrowed

/-- A command that completes from `s` completes from narrower registers. -/
theorem State.Narrows.exec {u s t : State} (h : u.Narrows s) {i : Instr} (unit : IsFieldUnit i) (legal : i.wf = true)
    (run : Machine.exec i s = .next t) (alive : t.fatal = false) : ∃ v, Machine.exec i u = .next v ∧ v.Narrows t := by
  obtain ⟨rd, result, computes⟩ := exists_computes legal unit
  rw [computes.run] at run
  injection run with run
  subst run
  obtain ⟨-, fits, written⟩ := produce_of_alive alive
  have width := computes.width h.rc h.bw
  refine ⟨_, computes.run u, ?_⟩
  rw [written, produce_of_fits (width.trans fits)]
  exact h.setReg rd (computes.element h.rc h.canon) width

theorem State.Narrows.execSeq {l : List Instr} (units : ∀ i ∈ l, IsFieldUnit i ∧ i.wf = true) {u s t : State}
    (h : u.Narrows s) (runs : Machine.execSeq l s = .next t) (alive : t.fatal = false) :
    ∃ v, Machine.execSeq l u = .next v ∧ v.Narrows t := by
  induction l generalizing u s with
  | nil =>
    injection runs with runs
    exact ⟨u, rfl, runs ▸ h⟩
  | cons i rest ih =>
    obtain ⟨⟨unit, legal⟩, restUnits⟩ := List.forall_mem_cons.1 units
    obtain ⟨m, run, runs⟩ := (execSeq_cons_eq_next_iff i rest s t).1 runs
    obtain ⟨k, run', narrows⟩ := h.exec unit legal run (alive_of_execSeq restUnits runs alive)
    rw [execSeq_cons run']
    exact ih restUnits narrows runs

/-- Settles O17: `FRED x, x` narrows, and the commands after it keep the registers no wider. -/
theorem fredInsertionKeepsMeaning : Obligations.FredInsertionKeepsMeaning := by
  intro before after x s t inv _ units runs alive
  obtain ⟨beforeUnits, afterUnits⟩ := List.forall_mem_append.1 units
  obtain ⟨m, first, last⟩ := (execSeq_append_eq_next_iff before after s t).1 runs
  have invMid := inv.execSeq beforeUnits first (alive_of_execSeq afterUnits last alive)
  obtain ⟨u, last', narrows⟩ := (invMid.fred_narrows x).execSeq afterUnits last alive
  refine ⟨u, ?_, narrows.fatal.trans alive, fun i => ⟨narrows.canon i, narrows.bw i⟩⟩
  rw [execSeq_append_eq_next_iff]
  exact ⟨m, first, (execSeq_cons (exec_fred x x m) after).trans last'⟩

end Sys2Proof.Machine
end

section
/-! PROOFS. Widths and errors do not depend on written values (`40_field_unit.md` R128): the relation `SameWidths` is
kept by every operation, command and step. -/

namespace Sys2Proof.Machine

/-! ### The relation under the updates of the state -/

section

variable {s s' : State}

theorem State.SameWidths.takeEvent (h : s.SameWidths s') {rest rest' : List BusEvent}
    (alike : List.Forall₂ BusEvent.Alike rest rest') : (takeEvent rest s).SameWidths (takeEvent rest' s') :=
  { h with pending := alike, reply := rfl }

theorem State.SameWidths.setReg (h : s.SameWidths s') (i : FReg) {r r' : FieldReg} (width : r'.bw = r.bw) :
    (s.setReg i r).SameWidths (s'.setReg i r') :=
  { h with
    bw := fun j => by
      rw [reg_setReg, reg_setReg]
      split
      · exact width
      · exact h.bw j }

/-- Whatever is written to the state vector, its width is 31. -/
theorem State.SameWidths.setStateVec (h : s.SameWidths s') (v v' : StateVec) :
    (s.setStateVec v).SameWidths (s'.setStateVec v') :=
  { h with
    bw := fun j => by
      rw [reg_setStateVec, reg_setStateVec]
      split
      · rfl
      · exact h.bw j }

theorem State.SameWidths.midPerm (h : s.SameWidths s') (v v' : StateVec) (phase : Phase) (rnd : Fin 21) :
    (s.midPerm v phase rnd).SameWidths (s'.midPerm v' phase rnd) :=
  { h.setStateVec v v' with phase := rfl, rnd := rfl }

theorem State.SameWidths.raise (h : s.SameWidths s') (c : ErrCode) (w : Word) :
    (Machine.raise c w s).SameWidths (Machine.raise c w s') := by
  by_cases dead : s.fatal = true
  · rw [raise_of_fatal dead, raise_of_fatal (h.fatal.trans dead)]
    exact h
  · rw [Bool.not_eq_true] at dead
    rw [raise_of_not_fatal dead, raise_of_not_fatal (h.fatal.trans dead)]
    exact { h with fatal := rfl, err := rfl, errInfo := rfl }

theorem State.SameWidths.resetEngine (h : s.SameWidths s') :
    (Machine.resetEngine s).SameWidths (Machine.resetEngine s') :=
  { h with
    bw := fun _ => rfl
    fatal := by simp only [resetEngine_fatal, h.rc]
    err := by simp only [resetEngine_err, h.rc]
    errInfo := by simp only [resetEngine_errInfo, h.rc]
    phase := rfl
    rnd := rfl }

theorem State.SameWidths.driveReset (h : s.SameWidths s') (b : Bool) :
    (Machine.driveReset b s).SameWidths (Machine.driveReset b s') := by
  have driven : ∀ level : Bool, { s with resetLine := level }.SameWidths { s' with resetLine := level } :=
    fun _ => { h with resetLine := rfl }
  unfold Machine.driveReset
  rw [h.resetLine]
  split
  · exact (driven false).resetEngine
  · exact driven b

theorem State.SameWidths.produce (h : s.SameWidths s') (i : Instr) (rd : FReg) {r r' : FieldReg}
    (width : r'.bw = r.bw) : (Machine.produce i rd r s).SameWidths (Machine.produce i rd r' s') := by
  unfold Machine.produce
  rw [width]
  split
  · exact h.raise _ _
  · exact h.setReg rd width

/-! ### Commands -/

/-- Both results are next states, and they agree on everything but values. -/
def SameWidthsNext (r r' : Result) : Prop := ∃ t t', r = .next t ∧ r' = .next t' ∧ t.SameWidths t'

theorem State.SameWidths.next {t t' : State} (h : t.SameWidths t') : SameWidthsNext (.next t) (.next t') :=
  ⟨t, t', rfl, rfl, h⟩

/-- A composite command writes at width 31, a field-unit command at a width made of widths. -/
theorem State.SameWidths.exec (h : s.SameWidths s') {i : Instr} (legal : i.wf = true) :
    SameWidthsNext (Machine.exec i s) (Machine.exec i s') := by
  by_cases unit : IsFieldUnit i
  · obtain ⟨rd, result, computes⟩ := exists_computes legal unit
    rw [computes.run, computes.run]
    refine (h.produce i rd (le_antisymm ?_ ?_)).next
    · exact computes.width h.rc fun j => (h.bw j).le
    · exact computes.width h.rc.symm fun j => (h.bw j).ge
  · obtain ⟨rd, f, run⟩ | ⟨f, run⟩ | ⟨f, run⟩ := exec_composite legal unit
    · have width : (reduced (f s'.rc s'.canon)).bw = (reduced (f s.rc s.canon)).bw := rfl
      rw [run, run]
      exact (h.setReg rd width).next
    · rw [run, run]
      exact (h.setStateVec _ _).next
    · rw [run, run]
      exact (h.midPerm _ _ _ _).next

/-! ### The bus -/

theorem State.SameWidths.busRead (h : s.SameWidths s') (off : BitVec 12) (size : Nat) :
    (Machine.busRead off size s).SameWidths (Machine.busRead off size s') := by
  unfold Machine.busRead
  split
  · exact { h with reply := rfl }
  · exact { h.raise .busAccess (accessInfo false off) with reply := rfl }

theorem State.SameWidths.writeCmd (h : s.SameWidths s') (w : Word) :
    SameWidthsNext (Machine.writeCmd w s) (Machine.writeCmd w s') := by
  unfold Machine.writeCmd
  rw [h.fatal]
  split
  · exact h.next
  · split
    · next decoded => exact h.exec (wf_of_decodeWord decoded)
    · exact (h.raise _ w).next

/-- Two words written to the same field register are written at the same width. -/
theorem State.SameWidths.writeFieldReg (h : s.SameWidths s') (i : FReg) (w w' : Word) :
    (Machine.writeFieldReg i w s).SameWidths (Machine.writeFieldReg i w' s') := by
  unfold Machine.writeFieldReg
  rw [h.fatal]
  split
  · exact h
  · exact h.setReg i rfl

theorem State.SameWidths.writeWord (h : s.SameWidths s') (r : WindowReg) (w : Word) :
    SameWidthsNext (Machine.writeWord r w s) (Machine.writeWord r w s') := by
  cases r with
  | cmd => exact h.writeCmd w
  | ctrl =>
    simp only [Machine.writeWord, writeCtrl]
    split
    · exact h.resetEngine.next
    · exact h.next
  | f i => exact (h.writeFieldReg i w w).next
  | status | err | errInfo | cfg | fbw | cromw => exact h.next

/-- A write to a field register is legal exactly when its data is a word. -/
theorem legalWrite_field {off : BitVec 12} {i : FReg} (place : windowAt off = some (.f i)) (data : List Byte) :
    legalWrite off data = (wordOfBytes data).map (WindowReg.f i, ·) := by
  have writable : (windowAt off).filter WindowReg.writable = some (.f i) := by
    rw [place]
    rfl
  unfold legalWrite
  rw [writable]
  cases wordOfBytes data <;> rfl

theorem State.SameWidths.busWrite (h : s.SameWidths s') {off : BitVec 12} {data data' : List Byte}
    (size : data.length = data'.length) (alike : data = data' ∨ ∃ i, windowAt off = some (.f i)) :
    SameWidthsNext (Machine.busWrite off data s) (Machine.busWrite off data' s') := by
  have refused := (h.raise .busAccess (accessInfo true off)).next
  unfold Machine.busWrite
  obtain rfl | ⟨i, place⟩ := alike
  · split
    · exact h.writeWord _ _
    · exact refused
  · rw [legalWrite_field place, legalWrite_field place]
    have words : (∃ w, wordOfBytes data = some w) ↔ ∃ w, wordOfBytes data' = some w := by
      rw [exists_wordOfBytes_iff, exists_wordOfBytes_iff, size]
    cases word : wordOfBytes data with
    | none =>
      have word' : wordOfBytes data' = none := by
        simpa [word, Option.eq_none_iff_forall_ne_some] using words
      rw [word']
      exact refused
    | some w =>
      obtain ⟨w', word'⟩ := words.1 ⟨w, word⟩
      rw [word']
      exact (h.writeFieldReg i w w').next

/-! ### Steps and runs -/

theorem State.SameWidths.serveWrite (h : s.SameWidths s') {off : BitVec 12} {data data' : List Byte}
    (size : data.length = data'.length) (alike : data = data' ∨ ∃ i, windowAt off = some (.f i)) :
    SameWidthsNext (Machine.serve (.write off data) s) (Machine.serve (.write off data') s') := by
  simp only [Machine.serve, h.resetLine]
  split
  · exact h.next
  · exact h.busWrite size alike

theorem State.SameWidths.serve (h : s.SameWidths s') {e e' : BusEvent} (alike : e.Alike e') :
    SameWidthsNext (Machine.serve e s) (Machine.serve e' s') := by
  unfold BusEvent.Alike at alike
  split at alike
  · obtain ⟨rfl, size, same⟩ := alike
    exact h.serveWrite size same
  · subst alike
    cases e with
    | resetPin b => exact (h.driveReset b).next
    | read off size =>
      simp only [Machine.serve, h.resetLine]
      split
      · exact h.next
      · exact (h.busRead off size).next
    | write off data => exact h.serveWrite rfl (.inl rfl)

theorem State.SameWidths.step (h : s.SameWidths s') : SameWidthsNext (Machine.step s) (Machine.step s') := by
  cases events : s.pending with
  | nil =>
    have events' : s'.pending = [] := List.forall₂_nil_left_iff.1 (events ▸ h.pending)
    rw [step_idle events, step_idle events']
    exact h.next
  | cons e rest =>
    obtain ⟨e', rest', alike, restAlike, events'⟩ := List.forall₂_cons_left_iff.1 (events ▸ h.pending)
    rw [step_event events, step_event events']
    exact (h.takeEvent restAlike).serve alike

end

/-- A relation that a step from related states keeps is kept by runs of any length. -/
theorem run_related {M : Host.Core} {R : M.State → M.State → Prop}
    (step_related : ∀ {s s'}, R s s' → ∃ u u', M.step s = .next u ∧ M.step s' = .next u' ∧ R u u') (n : Nat)
    {s t s' t' : M.State} (h : R s s') (run : M.run n s = .next t) (run' : M.run n s' = .next t') : R t t' := by
  induction n generalizing s s' with
  | zero =>
    injection run with run
    injection run' with run'
    subst run run'
    exact h
  | succ n ih =>
    obtain ⟨u, u', first, first', hu⟩ := step_related h
    rw [run_succ_of_step first] at run
    rw [run_succ_of_step first'] at run'
    exact ih hu run run'

/-- Settles O15: every step keeps the relation, so runs of any length do. -/
theorem trackedWidthsIgnoreValues : Obligations.TrackedWidthsIgnoreValues :=
  fun n _ _ _ _ => run_related (M := core) (R := State.SameWidths) (fun h => h.step) n

end Sys2Proof.Machine
end

section
/-! PROOFS. The S-box (`41_sbox.md`): what its commands write (R143 to R145), that it permutes `Fp` (R146), and the
field-unit program that computes it (R147). -/

namespace Sys2Proof.Machine

/-! ### The commands -/

theorem exec_sbox (rd ra : FReg) (s : State) :
    exec (.sbox rd ra) s = .next (s.setReg rd (reduced (sbox7 (s.canon ra)))) := rfl

theorem exec_sboxf (s : State) : exec .sboxf s = .next (s.setStateVec (sboxAll s.stateVec)) := rfl

/-- `SBOXP` has the same effect as `SBOX S0, S0` (R145). -/
theorem exec_sboxp (s : State) : exec .sboxp s = exec (.sbox 0 0) s := rfl

theorem sbox7_val (x : Fp) : (sbox7 x).val = x.val ^ 7 % P := toFp_val _

/-- What the S-box commands write for a source register, whatever its representation (R141, R143). -/
theorem reduced_sbox7_canon (s : State) (i : FReg) :
    reduced (sbox7 (s.canon i)) = ⟨((s.reg i).val % P) ^ 7 % P, 31⟩ := by
  rw [reduced, sbox7_val, State.canon, toFp_val]

/-- Settles O18: SBOX is one write of a reduced seventh power. -/
theorem sboxWritesSeventhPower : Obligations.SboxWritesSeventhPower := by
  intro rd ra s
  refine ⟨_, exec_sbox rd ra s, ?_, onlyRegs_setReg _ _ _⟩
  rw [reg_setReg_same, reduced_sbox7_canon]

/-- Settles O19: SBOXF writes the whole state vector. -/
theorem sboxfMapsEveryElement : Obligations.SboxfMapsEveryElement := by
  intro s
  refine ⟨_, exec_sboxf s, fun i => ?_, onlyRegs_setStateVec _ _⟩
  rw [reg_setStateVec_sReg]
  exact reduced_sbox7_canon s (sReg i)

/-- Settles O20: SBOXP is `SBOX S0, S0`, so O18 says what it writes. -/
theorem sboxpMapsElementZero : Obligations.SboxpMapsElementZero := by
  intro s
  obtain ⟨t, run, written, frame⟩ := sboxWritesSeventhPower 0 0 s
  exact ⟨t, (exec_sboxp s).trans run, written, frame, run⟩

/-! ### The S-box permutes the field -/

theorem prime_dvd_P_sub_one {q : Nat} (prime : q.Prime) (divides : q ∣ P - 1) : q = 2 ∨ q = 3 ∨ q = 5 := by
  have factors : P - 1 = 2 ^ 27 * (3 * 5) := by norm_num
  rw [factors, prime.dvd_mul, prime.dvd_mul] at divides
  refine divides.imp (fun two => ?_) (Or.imp (fun three => ?_) fun five => ?_)
  · exact (Nat.prime_dvd_prime_iff_eq prime Nat.prime_two).1 (prime.dvd_of_dvd_pow two)
  · exact (Nat.prime_dvd_prime_iff_eq prime Nat.prime_three).1 three
  · exact (Nat.prime_dvd_prime_iff_eq prime Nat.prime_five).1 five

/-- Lucas's criterion: the order of 31 modulo `P` is `P - 1`, as no quotient of `P - 1` by one of its primes is a
multiple of it. -/
theorem prime_P : P.Prime := by
  refine lucas_primality P 31 (by reduce_mod_char) fun q prime divides => ?_
  obtain rfl | rfl | rfl := prime_dvd_P_sub_one prime divides
  all_goals
    reduce_mod_char
    decide

/-- The seventh power is injective on a field whose number of units 7 does not divide. -/
theorem pow_seven_injective {F : Type*} [Field F] (coprime : (Nat.card Fˣ).Coprime 7) {x y : F}
    (same : x ^ 7 = y ^ 7) : x = y := by
  have zeros : x = 0 ↔ y = 0 := by rw [← pow_eq_zero_iff (n := 7) (by decide), same, pow_eq_zero_iff (by decide)]
  by_cases zero : x = 0
  · rw [zero, zeros.1 zero]
  · have units : Units.mk0 x zero ^ 7 = Units.mk0 y (zero ∘ zeros.2) ^ 7 := Units.ext same
    exact congrArg Units.val (coprime.pow_left_bijective.injective units)

theorem natCast_sbox7 (x : Fp) : (((sbox7 x).val : Nat) : ZMod P) = (x.val : ZMod P) ^ 7 := by
  rw [sbox7_val, ZMod.natCast_mod, Nat.cast_pow]

/-- Settles O22: 7 is coprime to the number `P - 1` of units of the prime field, and `Fp` is finite. -/
theorem sbox7IsBijective : Obligations.Sbox7IsBijective := by
  have prime : Fact P.Prime := ⟨prime_P⟩
  have coprime : (Nat.card (ZMod P)ˣ).Coprime 7 := by
    rw [Nat.card_eq_fintype_card, ZMod.card_units]
    norm_num
  refine Finite.injective_iff_bijective.1 fun x y same => ?_
  have powers : (x.val : ZMod P) ^ 7 = (y.val : ZMod P) ^ 7 := by rw [← natCast_sbox7, same, natCast_sbox7]
  have elements := (ZMod.natCast_eq_natCast_iff' _ _ _).1 (pow_seven_injective coprime powers)
  rwa [← toFp_eq_iff, toFp_val_self, toFp_val_self] at elements

/-! ### The S-box by field-unit commands -/

theorem tReg_inj {i j : Fin 16} : tReg i = tReg j ↔ i = j := by
  simp [tReg, Fin.ext_iff]

/-- A command that writes `T[i]` only keeps every other `T[j]`. -/
theorem State.OnlyRegs.reg_tReg {s t : State} {i : Fin 16} (frame : s.OnlyRegs (· = tReg i) t) {j : Fin 16}
    (other : j ≠ i) : t.reg (tReg j) = s.reg (tReg j) :=
  frame.others _ (mt tReg_inj.1 other)

/-- Adding the constant zero in `T1` and reducing normalises `T0` (R141). -/
theorem execSeq_normalise {s : State} (narrow : (s.reg (tReg 0)).bw < 256) :
    ∃ t, execSeq [.fldc (tReg 1) 353, .fadd (tReg 0) (tReg 0) (tReg 1), .fred (tReg 0) (tReg 0)] s = .next t ∧
      t.reg (tReg 0) = reduced (s.canon (tReg 0)) ∧ t.fatal = s.fatal := by
  have zero : exec (.fldc (tReg 1) 353) s = .next (s.setReg (tReg 1) ⟨0, 31⟩) :=
    exec_fldc (c := 353) (w := 0) rfl (tReg 1)
  have kept : (s.setReg (tReg 1) ⟨0, 31⟩).reg (tReg 0) = s.reg (tReg 0) := (onlyRegs_setReg _ _ _).reg_tReg (by decide)
  have fits : max (s.reg (tReg 0)).bw 31 + 1 ≤ 256 := by omega
  rw [execSeq_cons zero, execSeq_cons (exec_fadd _ _ _ _), kept, reg_setReg_same, produce_of_fits fits,
    execSeq_cons (exec_fred _ _ _), execSeq]
  refine ⟨_, rfl, ?_, rfl⟩
  rw [reg_setReg_same, canon_setReg_same, Nat.add_zero, State.canon]

/-- FMUL adds the exponents of two powers of one number, and their widths. -/
theorem exec_fmul_powers {s : State} {ra rb : FReg} {x m n a b : Nat} (ha : s.reg ra = ⟨x ^ m, a⟩)
    (hb : s.reg rb = ⟨x ^ n, b⟩) (fits : a + b ≤ 256) (rd : FReg) :
    ∃ t, exec (.fmul rd ra rb) s = .next t ∧ t.reg rd = ⟨x ^ (m + n), a + b⟩ ∧ s.OnlyRegs (· = rd) t := by
  obtain ⟨completes, -⟩ := fmulWritesExactProduct rd ra rb s
  rw [ha, hb, ← pow_add] at completes
  exact completes fits

/-- The chain of four multiplications without reduction in between (R142). -/
theorem execSeq_powerChain {s : State} {x : Fp} (start : s.reg (tReg 0) = reduced x) :
    ∃ t, execSeq [.fmul (tReg 1) (tReg 0) (tReg 0), .fmul (tReg 2) (tReg 1) (tReg 1),
        .fmul (tReg 3) (tReg 2) (tReg 1), .fmul (tReg 4) (tReg 3) (tReg 0)] s = .next t ∧
      t.reg (tReg 1) = ⟨x.val ^ 2, 62⟩ ∧ t.reg (tReg 2) = ⟨x.val ^ 4, 124⟩ ∧ t.reg (tReg 3) = ⟨x.val ^ 6, 186⟩ ∧
      t.reg (tReg 4) = ⟨x.val ^ 7, 217⟩ ∧ t.fatal = s.fatal := by
  have base : s.reg (tReg 0) = ⟨x.val ^ 1, 31⟩ := by rw [start, reduced, pow_one]
  obtain ⟨s1, run1, x2, frame1⟩ := exec_fmul_powers base base (by decide) (tReg 1)
  obtain ⟨s2, run2, x4, frame2⟩ := exec_fmul_powers x2 x2 (by decide) (tReg 2)
  have x2' := (frame2.reg_tReg (j := 1) (by decide)).trans x2
  obtain ⟨s3, run3, x6, frame3⟩ := exec_fmul_powers x4 x2' (by decide) (tReg 3)
  have base' : s3.reg (tReg 0) = ⟨x.val ^ 1, 31⟩ := by
    rw [frame3.reg_tReg (by decide), frame2.reg_tReg (by decide), frame1.reg_tReg (by decide), base]
  obtain ⟨s4, run4, x7, frame4⟩ := exec_fmul_powers x6 base' (by decide) (tReg 4)
  rw [execSeq_cons run1, execSeq_cons run2, execSeq_cons run3, execSeq_cons run4, execSeq]
  refine ⟨s4, rfl, ?_, ?_, ?_, x7, ?_⟩
  · rw [frame4.reg_tReg (by decide), frame3.reg_tReg (by decide), x2']
  · rw [frame4.reg_tReg (by decide), frame3.reg_tReg (by decide), x4]
  · rw [frame4.reg_tReg (by decide), x6]
  · rw [frame4.beyond.fatal, frame3.beyond.fatal, frame2.beyond.fatal, frame1.beyond.fatal]

/-- Settles O21: normalising, then the chain, leave the seventh power in `T4` for the last FRED to reduce. -/
theorem sboxEqualsFieldUnitChain : Obligations.SboxEqualsFieldUnitChain := by
  intro s alive narrow
  obtain ⟨m, normalises, start, aliveMid⟩ := execSeq_normalise narrow
  obtain ⟨t, powers, x2, x4, x6, x7, aliveEnd⟩ := execSeq_powerChain start
  have run := (execSeq_append_eq_next_iff _ _ s t).2 ⟨m, normalises, powers⟩
  have aliveLast : t.fatal = false := aliveEnd.trans (aliveMid.trans alive)
  refine ⟨t, _, _, run, ?_, ?_, ?_, ?_, exec_fred _ _ t, exec_sbox _ _ s, aliveLast, alive, ?_⟩
  · rw [x2]
  · rw [x4]
  · rw [x6]
  · rw [x7]
  · rw [reg_setReg_same, reg_setReg_same, State.canon, x7, sbox7]

end Sys2Proof.Machine
end

section
/-! PROOFS. The linear layers (`42_linear_layers.md`): both are matrices over `Fp` (R159, R165), so both are linear
(R160, R166) and, as their kernels are trivial, invertible; what `MEXT` and `MINT` write (R161, R167). -/

namespace Sys2Proof.Machine

open Fin.CommRing

/-! ### Matrices over the field -/

theorem toFp_eq_natCast (n : Nat) : toFp n = (n : Fp) := rfl

/-- `Fp` has no zero divisors: a prime that divides a product divides a factor. -/
theorem fp_eq_zero_of_mul_eq_zero {c x : Fp} (unit : c ≠ 0) (zero : c * x = 0) : x = 0 := by
  have divides : P ∣ c.val * x.val := Nat.dvd_of_mod_eq_zero (congrArg Fin.val zero)
  obtain factor | factor := prime_P.dvd_mul.1 divides
  · exact absurd (Fin.ext (Nat.eq_zero_of_dvd_of_lt factor c.isLt)) unit
  · exact Fin.ext (Nat.eq_zero_of_dvd_of_lt factor x.isLt)

/-- A table of integers, such as `extEntry` and `intEntry`, as a matrix over `Fp`. -/
def overFp (m : Fin 16 → Fin 16 → Nat) : Matrix (Fin 16) (Fin 16) Fp := .of fun i j => toFp (m i j)

theorem overFp_mulVec (m : Fin 16 → Fin 16 → Nat) (s : StateVec) (i : Fin 16) :
    (overFp m).mulVec s i = ∑ j, toFp (m i j) * s j := rfl

theorem overFp_mulVec_val (m : Fin 16 → Fin 16 → Nat) (s : StateVec) (i : Fin 16) :
    ((overFp m).mulVec s i).val = (∑ j, m i j * (s j).val) % P := by
  have inFp : toFp (∑ j, m i j * (s j).val) = (overFp m).mulVec s i := by
    simp only [overFp_mulVec, toFp_eq_natCast, Nat.cast_sum, Nat.cast_mul, Fin.cast_val_eq_self]
  rw [← inFp, toFp_val]

theorem overFp_mulVec_single (m : Fin 16 → Fin 16 → Nat) (k i : Fin 16) (x : Fp) :
    (overFp m).mulVec (Pi.single k x) i = toFp (m i k) * x :=
  congrFun (Matrix.mulVec_single _ _ _) i

theorem mulVec_linear (m : Matrix (Fin 16) (Fin 16) Fp) :
    (∀ a b : StateVec, ∀ i, m.mulVec (fun j => a j + b j) i = m.mulVec a i + m.mulVec b i) ∧
      ∀ i, m.mulVec (fun _ => 0) i = 0 :=
  ⟨fun a b => congrFun (m.mulVec_add a b), congrFun m.mulVec_zero⟩

theorem mulVec_bijective {m : Matrix (Fin 16) (Fin 16) Fp} (kernel : ∀ s, m.mulVec s = 0 → s = 0) :
    Function.Bijective m.mulVec :=
  Finite.injective_iff_bijective.1 ((injective_iff_map_eq_zero m.mulVecLin).2 kernel)

/-- An output depends on every input whose entry in its row is not zero. -/
theorem overFp_mulVec_ne {m : Fin 16 → Fin 16 → Nat} {a b : StateVec} {i k : Fin 16} (entry : toFp (m i k) ≠ 0)
    (differ : a k ≠ b k) (agree : ∀ j, j ≠ k → a j = b j) : (overFp m).mulVec a i ≠ (overFp m).mulVec b i := by
  intro same
  have difference : a - b = Pi.single k (a k - b k) := by
    funext j
    by_cases h : j = k
    · rw [h, Pi.single_eq_same, Pi.sub_apply]
    · rw [Pi.single_eq_of_ne h, Pi.sub_apply, agree j h, sub_self]
  have product : toFp (m i k) * (a k - b k) = 0 := by
    rw [← overFp_mulVec_single, ← difference, Matrix.mulVec_sub, Pi.sub_apply, same, sub_self]
  exact differ (sub_eq_zero.1 (fp_eq_zero_of_mul_eq_zero entry product))

/-! ### Blocks and lanes -/

@[simp] theorem blockOf_blockIdx (b k : Fin 4) : blockOf (blockIdx b k) = b :=
  Fin.ext (by simp only [blockOf, blockIdx]; omega)

@[simp] theorem laneOf_blockIdx (b k : Fin 4) : laneOf (blockIdx b k) = k :=
  Fin.ext (by simp only [laneOf, blockIdx]; omega)

@[simp] theorem blockIdx_blockOf_laneOf (i : Fin 16) : blockIdx (blockOf i) (laneOf i) = i :=
  Fin.ext (Nat.div_add_mod i.val 4)

theorem sum_eq_sum_blockIdx (f : Fin 16 → Fp) : ∑ j, f j = ∑ b, ∑ k, f (blockIdx b k) := by
  rw [← (finProdFinEquiv (m := 4) (n := 4)).sum_comp f, Fintype.sum_prod_type]
  exact Fintype.sum_congr _ _ fun b => Fintype.sum_congr _ _ fun k => congrArg f (Fin.ext (Nat.add_comm _ _))

theorem blockMix_blockIdx (s : StateVec) (b k : Fin 4) : blockMix s (blockIdx b k) =
    mat4 (s (blockIdx b 0)) (s (blockIdx b 1)) (s (blockIdx b 2)) (s (blockIdx b 3)) k := by
  rw [blockMix, blockOf_blockIdx, laneOf_blockIdx]

theorem laneSum_eq_sum (u : StateVec) (k : Fin 4) : laneSum u k = ∑ b, u (blockIdx b k) :=
  (Fin.sum_univ_four fun b => u (blockIdx b k)).symm

theorem ext_blockIdx (s : StateVec) (b k : Fin 4) :
    ext s (blockIdx b k) = blockMix s (blockIdx b k) + ∑ c, blockMix s (blockIdx c k) := by
  rw [ext, laneOf_blockIdx, laneSum_eq_sum]

/-! ### The external layer -/

/-- `MAT4` is the printed 4 x 4 matrix (R156). -/
theorem mat4_eq_sum (v : Fin 4 → Fp) (k : Fin 4) :
    mat4 (v 0) (v 1) (v 2) (v 3) k = ∑ l, toFp (circEntry k l) * v l := by
  fin_cases k <;> simp [mat4, Fin.sum_univ_four, toFp_eq_natCast, circEntry] <;> ring

/-- `M_E` is the Kronecker product of `circ(2, 1, 1, 1)` and the 4 x 4 matrix (R159). -/
theorem toFp_extEntry_blockIdx (b k c l : Fin 4) : toFp (extEntry (blockIdx b k) (blockIdx c l)) =
    ((if b = c then 1 else 0) + 1) * toFp (circEntry k l) := by
  have sameBlock : (blockIdx b k).val / 4 = (blockIdx c l).val / 4 ↔ b = c := by
    simp only [Fin.ext_iff, blockIdx]
    omega
  rw [extEntry, laneOf_blockIdx, laneOf_blockIdx, toFp_mul]
  simp only [sameBlock]
  split <;> rfl

theorem ext_eq_mulVec : ext = (overFp extEntry).mulVec := by
  funext s i
  rw [← blockIdx_blockOf_laneOf i]
  generalize blockOf i = b, laneOf i = k
  have mixed (c : Fin 4) : blockMix s (blockIdx c k) = ∑ l, toFp (circEntry k l) * s (blockIdx c l) := by
    rw [blockMix_blockIdx]
    exact mat4_eq_sum (fun l => s (blockIdx c l)) k
  calc ext s (blockIdx b k)
      = ∑ c, ((if b = c then 1 else 0) + 1) * blockMix s (blockIdx c k) := by
        simp [ext_blockIdx, add_mul, Finset.sum_add_distrib]
    _ = ∑ c, ∑ l, toFp (extEntry (blockIdx b k) (blockIdx c l)) * s (blockIdx c l) := by
        simp only [mixed, toFp_extEntry_blockIdx, Finset.mul_sum, mul_assoc]
    _ = (overFp extEntry).mulVec s (blockIdx b k) := by rw [overFp_mulVec, sum_eq_sum_blockIdx]

/-- Settles O24: EXT is the matrix over `Fp`, which acts as the integer matrix modulo `P`. -/
theorem externalLayerIsBlockCirculant : Obligations.ExternalLayerIsBlockCirculant := by
  intro s i
  rw [ext_eq_mulVec, overFp_mulVec_val]

/-- Settles O25: a matrix is linear. -/
theorem externalLayerIsLinear : Obligations.ExternalLayerIsLinear := by
  rw [Obligations.ExternalLayerIsLinear, ext_eq_mulVec]
  exact mulVec_linear _

/-- The circulant `(2, 3, 1, 1)` has the inverse circulant `(-4, 3, -11, 17) / 35`. -/
theorem mat4_inverse (v : Fin 4 → Fp) (k : Fin 4) : 35 * v k =
    -4 * mat4 (v 0) (v 1) (v 2) (v 3) k + 3 * mat4 (v 0) (v 1) (v 2) (v 3) (k + 1)
      - 11 * mat4 (v 0) (v 1) (v 2) (v 3) (k + 2) + 17 * mat4 (v 0) (v 1) (v 2) (v 3) (k + 3) := by
  fin_cases k <;> simp [mat4] <;> ring

theorem blockMix_kernel {s : StateVec} (zero : blockMix s = 0) : s = 0 := by
  funext i
  have inverse := mat4_inverse (fun l => s (blockIdx (blockOf i) l)) (laneOf i)
  simp only [← blockMix_blockIdx, zero, Pi.zero_apply, mul_zero, add_zero, sub_zero, blockIdx_blockOf_laneOf] at inverse
  exact fp_eq_zero_of_mul_eq_zero (by decide) inverse

/-- Adding up the four blocks of the output gives five times the lane sums, so these vanish with the output. -/
theorem ext_kernel {s : StateVec} (zero : ext s = 0) : s = 0 := by
  have output (b k : Fin 4) : blockMix s (blockIdx b k) + ∑ c, blockMix s (blockIdx c k) = 0 := by
    rw [← ext_blockIdx, zero, Pi.zero_apply]
  have sums (k : Fin 4) : ∑ c, blockMix s (blockIdx c k) = 0 := by
    have total : ∑ c, blockMix s (blockIdx c k) + 4 * ∑ c, blockMix s (blockIdx c k) = 0 := by
      simpa [Finset.sum_add_distrib] using Fintype.sum_congr _ _ fun b => output b k
    refine fp_eq_zero_of_mul_eq_zero (c := 5) (by decide) ?_
    linear_combination total
  refine blockMix_kernel (funext fun i => ?_)
  simpa [sums] using output (blockOf i) (laneOf i)

/-! ### The internal layer -/

theorem totalSum_eq_sum (s : StateVec) : totalSum s = ∑ j, s j := by
  simp [totalSum, Fin.sum_univ_succ, add_assoc]

/-- `M_I` is the all-ones matrix plus the diagonal, times the correction (R165). -/
theorem toFp_intEntry (i j : Fin 16) :
    toFp (intEntry i j) = ((if i = j then diagElem i else 0) + 1) * toFp montyInv.toNat := by
  revert i j
  decide

theorem toFp_intEntry_ne_zero (i j : Fin 16) : toFp (intEntry i j) ≠ 0 := by
  revert i j
  decide

theorem int_eq_mulVec : int = (overFp intEntry).mulVec := by
  funext s i
  calc int s i = (∑ j, ((if i = j then diagElem i else 0) + 1) * s j) * toFp montyInv.toNat := by
        simp [int, totalSum_eq_sum, add_mul, Finset.sum_add_distrib, mul_comm (s i)]
    _ = (overFp intEntry).mulVec s i := by
        simp only [overFp_mulVec, toFp_intEntry, Finset.sum_mul, mul_right_comm]

/-- Settles O27: INT is the matrix over `Fp`, which acts as the integer matrix modulo `P`. -/
theorem internalLayerIsPrintedMatrix : Obligations.InternalLayerIsPrintedMatrix := by
  intro s i
  rw [int_eq_mulVec, overFp_mulVec_val]

/-- Settles O28: a matrix is linear, and no entry of this one is zero. -/
theorem internalLayerIsLinearAndDiffuses : Obligations.InternalLayerIsLinearAndDiffuses := by
  rw [Obligations.InternalLayerIsLinearAndDiffuses, int_eq_mulVec]
  obtain ⟨additive, zero⟩ := mulVec_linear (overFp intEntry)
  exact ⟨additive, zero, fun _ _ k differ agree i => overFp_mulVec_ne (toFp_intEntry_ne_zero i k) differ agree⟩

/-- The cofactors that bring the diagonal `-2, 2^0, ..., 2^13, 2^15` to one common value, `2^15`. -/
def diagCofactor (i : Fin 16) : Fp := if i = 0 then -2 ^ 14 else if i = 15 then 1 else 2 ^ (16 - i.val)

theorem diagCofactor_mul_diagElem (i : Fin 16) : diagCofactor i * diagElem i = 2 ^ 15 := by
  revert i
  decide

/-- The vanishing outputs give each element as a multiple of the total; adding these up, a nonzero multiple of the total
vanishes, so the total does and with it every element. -/
theorem int_kernel {s : StateVec} (zero : int s = 0) : s = 0 := by
  have output (i : Fin 16) : s i * diagElem i + totalSum s = 0 :=
    fp_eq_zero_of_mul_eq_zero (c := toFp montyInv.toNat) (by decide) ((mul_comm _ _).trans (congrFun zero i))
  have element (i : Fin 16) : 2 ^ 15 * s i = -(diagCofactor i * totalSum s) := by
    linear_combination diagCofactor i * output i - s i * diagCofactor_mul_diagElem i
  have total : totalSum s = 0 := by
    have sums := Fintype.sum_congr _ _ element
    rw [Finset.sum_neg_distrib, ← Finset.mul_sum, ← Finset.sum_mul, ← totalSum_eq_sum] at sums
    refine fp_eq_zero_of_mul_eq_zero (c := 2 ^ 15 + ∑ i, diagCofactor i) (by decide) ?_
    linear_combination sums
  funext i
  refine fp_eq_zero_of_mul_eq_zero (c := 2 ^ 15) (by decide) ?_
  rw [element, total, mul_zero, neg_zero]

/-- Settles O29: the kernels of both matrices are trivial, and the state vectors are finitely many. -/
theorem linearLayersAreBijective : Obligations.LinearLayersAreBijective := by
  rw [Obligations.LinearLayersAreBijective, ext_eq_mulVec, int_eq_mulVec]
  exact ⟨mulVec_bijective fun s zero => ext_kernel (by rwa [ext_eq_mulVec]),
    mulVec_bijective fun s zero => int_kernel (by rwa [int_eq_mulVec])⟩

/-! ### The commands -/

theorem exec_mext (s : State) : exec .mext s = .next (s.setStateVec (ext s.stateVec)) := rfl

theorem exec_mint (s : State) : exec .mint s = .next (s.setStateVec (int s.stateVec)) := rfl

/-- What a command does whose whole effect is `S <- v`. -/
theorem effect_of_setStateVec {i : Instr} {s : State} {v : StateVec} (run : exec i s = .next (s.setStateVec v)) :
    ∃ t, exec i s = .next t ∧ (∀ k : Fin 16, t.reg (sReg k) = ⟨(v k).val, 31⟩) ∧ s.OnlyRegs IsStateReg t :=
  ⟨_, run, reg_setStateVec_sReg s v, onlyRegs_setStateVec s v⟩

/-- Settles O23: MEXT writes the whole state vector. -/
theorem mextAppliesExternalLayer : Obligations.MextAppliesExternalLayer :=
  fun s => effect_of_setStateVec (exec_mext s)

/-- Settles O26: MINT writes the whole state vector. -/
theorem mintAppliesInternalLayer : Obligations.MintAppliesInternalLayer :=
  fun s => effect_of_setStateVec (exec_mint s)

end Sys2Proof.Machine
end

section
/-! PROOFS. The round commands of `43_permutation_engine.md`: adding round constants (R177, R178), and a round as one
command or as three (R181, R182). -/

namespace Sys2Proof.Machine

/-! ### The row operand -/

theorem withRow_of_val_eq {r : RowField} {row : Fin 21} (same : r.val = row.val) (i : Instr) (s : State)
    (k : Fin 21 → State) : withRow i r s k = k row := by
  have legal : r.val < 21 := same ▸ row.isLt
  have index : (⟨r.val, legal⟩ : Fin 21) = row := Fin.ext same
  rw [withRow_of_legal legal, index]

section
variable {r : RowField} {row : Fin 21} (same : r.val = row.val) (s : State)
include same

theorem exec_arcf : exec (.arcf r) s = .next (s.setStateVec (arcAll s.rc row s.stateVec)) :=
  congrArg Host.Outcome.next (withRow_of_val_eq same _ s _)

theorem exec_arcp : exec (.arcp r) s = .next (s.setReg 0 (reduced (s.canon 0 + rcElem s.rc row 0))) :=
  congrArg Host.Outcome.next (withRow_of_val_eq same _ s _)

theorem exec_rndf : exec (.rndf r) s = .next (s.setStateVec (roundF s.rc row s.stateVec)) :=
  congrArg Host.Outcome.next (withRow_of_val_eq same _ s _)

theorem exec_rndp : exec (.rndp r) s = .next (s.setStateVec (roundP s.rc row s.stateVec)) :=
  congrArg Host.Outcome.next (withRow_of_val_eq same _ s _)

end

/-! ### Adding round constants -/

/-- What the round-constant commands write where `x` stood (R176). -/
theorem reduced_add_rcElem (x : Fp) (rc : RcTable) (row : Fin 21) (i : Fin 16) :
    reduced (x + rcElem rc row i) = ⟨(x.val + (rc[row][i]).toNat) % P, 31⟩ := by
  have sum : toFp (x.val + (rc[row][i]).toNat) = x + rcElem rc row i := by rw [toFp_add, toFp_val_self, rcElem]
  rw [← sum, reduced, toFp_val]

/-- Settles O30: ARCF writes the whole state vector. -/
theorem arcfAddsRow : Obligations.ArcfAddsRow := by
  intro row r s same
  refine ⟨_, exec_arcf same s, fun i => ?_, onlyRegs_setStateVec _ _⟩
  rw [reg_setStateVec_sReg]
  exact reduced_add_rcElem (s.canon (sReg i)) s.rc row i

/-- Settles O31: ARCP is one write of a reduced sum. -/
theorem arcpAddsToElementZero : Obligations.ArcpAddsToElementZero := by
  intro row r s same
  refine ⟨_, exec_arcp same s, ?_, onlyRegs_setReg _ _ _⟩
  rw [reg_setReg_same, reduced_add_rcElem]

/-! ### A round as three commands -/

theorem execSeq_externalSteps {r : RowField} {row : Fin 21} (same : r.val = row.val) (s : State) :
    execSeq (externalSteps r) s = .next (s.setStateVec (roundF s.rc row s.stateVec)) := by
  rw [externalSteps, execSeq_cons (exec_arcf same s), execSeq_cons (exec_sboxf _), execSeq_cons (exec_mext _)]
  simp only [execSeq, setStateVec_setStateVec, stateVec_setStateVec, roundF]

/-- A command that maps the element of `S[0]` maps element 0 of the state vector: the other registers keep their
representation, and so what they denote. -/
theorem stateVec_setReg_zero_map (s : State) (f : Fp → Fp) : (s.setReg 0 (reduced (f (s.canon 0)))).stateVec =
    fun i => if i = 0 then f (s.stateVec i) else s.stateVec i := by
  rw [stateVec_setReg_zero]
  funext i
  by_cases zero : i = 0
  · subst zero
    rfl
  · simp only [zero, if_false]

theorem stateVec_arcp (s : State) (row : Fin 21) :
    (s.setReg 0 (reduced (s.canon 0 + rcElem s.rc row 0))).stateVec = arc0 s.rc row s.stateVec :=
  stateVec_setReg_zero_map s (· + rcElem s.rc row 0)

theorem stateVec_sboxp (s : State) : (s.setReg 0 (reduced (sbox7 (s.canon 0)))).stateVec = sbox0 s.stateVec :=
  stateVec_setReg_zero_map s sbox7

/-- `MINT` writes every state register, so what `ARCP` and `SBOXP` left in them shows only in its operand. -/
theorem execSeq_internalSteps {r : RowField} {row : Fin 21} (same : r.val = row.val) (s : State) :
    execSeq (internalSteps r) s = .next (s.setStateVec (roundP s.rc row s.stateVec)) := by
  rw [internalSteps, execSeq_cons (exec_arcp same s), execSeq_cons ((exec_sboxp _).trans (exec_sbox 0 0 _)),
    execSeq_cons (exec_mint _), execSeq, stateVec_sboxp, stateVec_arcp, setReg_zero_setStateVec,
    setReg_zero_setStateVec, roundP]

/-- Settles O32: RNDF writes the round function's value, and so do the three commands. -/
theorem rndfIsArcfSboxfMext : Obligations.RndfIsArcfSboxfMext := fun row _ s same =>
  ⟨_, exec_rndf same s, reg_setStateVec_sReg s (roundF s.rc row s.stateVec), onlyRegs_setStateVec _ _,
    execSeq_externalSteps same s⟩

/-- The two steps of an internal round before its linear layer, at once (R180). -/
theorem sbox0_arc0 (rc : RcTable) (row : Fin 21) (v : StateVec) :
    sbox0 (arc0 rc row v) = fun i => if i = 0 then sbox7 (v 0 + rcElem rc row 0) else v i := by
  funext i
  by_cases zero : i = 0
  · simp [sbox0, arc0, zero]
  · simp [sbox0, arc0, zero]

/-- Settles O33: RNDP writes the round function's value, and so do the three commands. -/
theorem rndpIsArcpSboxpMint : Obligations.RndpIsArcpSboxpMint := by
  intro row r s same
  refine ⟨_, exec_rndp same s, fun i => ?_, onlyRegs_setStateVec _ _, execSeq_internalSteps same s⟩
  rw [reg_setStateVec_sReg, roundP, sbox0_arc0]
  rfl

end Sys2Proof.Machine
end

section
/-! PROOFS. `PERMUTE` as a function of the table and the state vector (`43_permutation_engine.md` R183): which entries
it depends on (R175), that it is a bijection (R191), and the zero vector under the zero table (R185). -/

namespace Sys2Proof.Machine

/-! ### The schedule of rounds -/

/-- A round function applied row by row. -/
def rounds (round : RcTable → Fin 21 → StateVec → StateVec) (rc : RcTable) (rows : List (Fin 21)) (v : StateVec) :
    StateVec :=
  rows.foldl (fun u r => round rc r u) v

theorem permute_eq (rc : RcTable) : permute rc =
    rounds roundF rc [17, 18, 19, 20] ∘ rounds roundP rc [4, 5, 6, 7, 8, 9, 10, 11, 12, 13, 14, 15, 16] ∘
      rounds roundF rc [0, 1, 2, 3] ∘ ext := by
  funext v
  simp only [permute, rounds, Function.comp_apply]

/-! ### The entries of the table that are used -/

theorem roundF_congr {rc rc' : RcTable} {r : Fin 21} (row : ∀ i : Fin 16, rc[r][i] = rc'[r][i]) :
    roundF rc r = roundF rc' r := by
  have sums : arcAll rc r = arcAll rc' r := by
    funext v i
    rw [arcAll, arcAll, rcElem, rcElem, row]
  funext v
  rw [roundF, roundF, sums]

theorem roundP_congr {rc rc' : RcTable} {r : Fin 21} (entry : rc[r][(0 : Fin 16)] = rc'[r][(0 : Fin 16)]) :
    roundP rc r = roundP rc' r := by
  have sums : arc0 rc r = arc0 rc' r := by
    funext v i
    rw [arc0, arc0, rcElem, rcElem, entry]
  funext v
  rw [roundP, roundP, sums]

theorem rounds_congr {round : RcTable → Fin 21 → StateVec → StateVec} {rc rc' : RcTable} {rows : List (Fin 21)}
    (each : ∀ r ∈ rows, round rc r = round rc' r) : rounds round rc rows = rounds round rc' rows :=
  funext fun v => List.foldl_ext _ _ v fun u r mem => congrFun (each r mem) u

/-- Settles O37: round by round, the two tables agree on what the round uses. -/
theorem unusedTableEntriesDoNotMatter : Obligations.UnusedTableEntriesDoNotMatter := by
  intro rc rc' agree
  have firstHalf : rounds roundF rc [0, 1, 2, 3] = rounds roundF rc' [0, 1, 2, 3] :=
    rounds_congr fun r mem => roundF_congr fun i =>
      agree r i (.inl ((by decide : ∀ r ∈ ([0, 1, 2, 3] : List (Fin 21)), r.val < 4) r mem))
  have secondHalf : rounds roundF rc [17, 18, 19, 20] = rounds roundF rc' [17, 18, 19, 20] :=
    rounds_congr fun r mem => roundF_congr fun i =>
      agree r i (.inr (.inl ((by decide : ∀ r ∈ ([17, 18, 19, 20] : List (Fin 21)), 16 < r.val) r mem)))
  have internal (rows : List (Fin 21)) : rounds roundP rc rows = rounds roundP rc' rows :=
    rounds_congr fun r _ => roundP_congr (agree r 0 (.inr (.inr rfl)))
  rw [permute_eq, permute_eq, firstHalf, internal, secondHalf]

/-! ### Bijectivity -/

theorem rounds_bijective {round : RcTable → Fin 21 → StateVec → StateVec} {rc : RcTable}
    (each : ∀ r, Function.Bijective (round rc r)) (rows : List (Fin 21)) :
    Function.Bijective (rounds round rc rows) := by
  induction rows with
  | nil => exact Function.bijective_id
  | cons r rows ih => exact ih.comp (each r)

/-- A bijection of `Fp` applied to element 0 alone. -/
theorem onElementZero_bijective {f : Fp → Fp} (h : Function.Bijective f) :
    Function.Bijective fun (v : StateVec) (i : Fin 16) => if i = 0 then f (v i) else v i := by
  have each : ∀ i : Fin 16, Function.Bijective fun x => if i = 0 then f x else x := by
    intro i
    split
    · exact h
    · exact Function.bijective_id
  exact Function.Bijective.piMap each

/-- Adding constants is undone by subtracting them. -/
theorem arcAll_bijective (rc : RcTable) (r : Fin 21) : Function.Bijective (arcAll rc r) :=
  (Equiv.addRight (rcElem rc r)).bijective

theorem arc0_bijective (rc : RcTable) (r : Fin 21) : Function.Bijective (arc0 rc r) :=
  onElementZero_bijective (Equiv.addRight (rcElem rc r 0)).bijective

theorem sboxAll_bijective : Function.Bijective sboxAll := Function.Bijective.piMap fun _ => sbox7IsBijective

theorem sbox0_bijective : Function.Bijective sbox0 := onElementZero_bijective sbox7IsBijective

theorem roundF_bijective (rc : RcTable) (r : Fin 21) : Function.Bijective (roundF rc r) :=
  linearLayersAreBijective.1.comp (sboxAll_bijective.comp (arcAll_bijective rc r))

theorem roundP_bijective (rc : RcTable) (r : Fin 21) : Function.Bijective (roundP rc r) :=
  linearLayersAreBijective.2.comp (sbox0_bijective.comp (arc0_bijective rc r))

/-- Settles O38: PERMUTE composes the external layer and the rounds, each of them a bijection. -/
theorem permuteIsBijective : Obligations.PermuteIsBijective := by
  intro rc
  have external := rounds_bijective (roundF_bijective rc)
  have internal := rounds_bijective (roundP_bijective rc)
  rw [permute_eq]
  exact (external _).comp ((internal _).comp ((external _).comp linearLayersAreBijective.1))

/-! ### The zero vector under the zero table -/

theorem sbox7_zero : sbox7 0 = 0 := rfl

theorem ext_zero : ext (fun _ => 0) = fun _ => 0 := funext externalLayerIsLinear.2

theorem int_zero : int (fun _ => 0) = fun _ => 0 :=
  let ⟨_, zero, _⟩ := internalLayerIsLinearAndDiffuses
  funext zero

theorem rounds_zero {round : RcTable → Fin 21 → StateVec → StateVec} {rc : RcTable}
    (each : ∀ r, round rc r (fun _ => 0) = fun _ => 0) (rows : List (Fin 21)) :
    rounds round rc rows (fun _ => 0) = fun _ => 0 :=
  List.foldl_fixed' each rows

section
variable {rc : RcTable} (zero : ∀ (r : Fin 21) (k : Fin 16), rc[r][k] = 0)
include zero

theorem rcElem_zero (r : Fin 21) (k : Fin 16) : rcElem rc r k = 0 := by
  rw [rcElem, zero]
  rfl

theorem roundF_zero (r : Fin 21) : roundF rc r (fun _ => 0) = fun _ => 0 := by
  have boxed : sboxAll (arcAll rc r fun _ => 0) = fun _ => 0 := by
    funext i
    rw [sboxAll, arcAll, rcElem_zero zero, add_zero, sbox7_zero]
  rw [roundF, boxed, ext_zero]

theorem roundP_zero (r : Fin 21) : roundP rc r (fun _ => 0) = fun _ => 0 := by
  have boxed : sbox0 (arc0 rc r fun _ => 0) = fun _ => 0 := by
    funext i
    simp only [sbox0_arc0, rcElem_zero zero, add_zero, sbox7_zero, ite_self]
  rw [roundP, boxed, int_zero]

theorem permute_zero : permute rc (fun _ => 0) = fun _ => 0 := by
  simp only [permute_eq, Function.comp_apply, ext_zero, rounds_zero (roundF_zero zero),
    rounds_zero (roundP_zero zero)]

end

end Sys2Proof.Machine
end

section
/-! PROOFS. `PERM` (`43_permutation_engine.md` R185): its sequencer (R187, R188), what it writes, and its two
decompositions into commands (R189). -/

namespace Sys2Proof.Machine

/-! ### The sequencer's schedule -/

/-- Where the sequencer stands: its phase and round. -/
def State.place (s : State) : Phase × Fin 21 := (s.phase, s.rnd)

/-- Where the sequencer goes from a phase and round (`43_permutation_engine.md` R187). -/
def nextPlace : Phase × Fin 21 → Phase × Fin 21
  | (.idle, r) => (.idle, r)
  | (.init, _) => (.ext1, 0)
  | (.ext1, r) => if r.val < 3 then (.ext1, r + 1) else (.int, 4)
  | (.int, r) => if r.val < 16 then (.int, r + 1) else (.ext2, 17)
  | (.ext2, r) => if r.val < 20 then (.ext2, r + 1) else (.idle, 0)

/-- The sequencer's way does not depend on the registers. -/
theorem place_seqStep (s : State) : (seqStep s).place = nextPlace s.place := by
  unfold seqStep State.place
  split
  · next phase => rw [phase, nextPlace]
  · next phase => rw [phase, nextPlace]
  · next phase => rw [phase, nextPlace, ← apply_ite₂ Prod.mk]
  · next phase => rw [phase, nextPlace, ← apply_ite₂ Prod.mk]
  · next phase => rw [phase, nextPlace, ← apply_ite₂ Prod.mk]

theorem place_seqRun (n : Nat) (s : State) : (seqRun n s).place = nextPlace^[n] s.place := by
  induction n generalizing s with
  | zero => rfl
  | succ n ih => rw [seqRun, ih, place_seqStep, Function.iterate_succ_apply]

/-- Settles O35: the sequencer's places are those `nextPlace` reaches from INIT. -/
theorem sequencerWalksTheSchedule : Obligations.SequencerWalksTheSchedule := by
  intro s
  have places : (List.range 23).map (fun k => (seqRun k (seqStart s)).place) =
      (List.range 23).map fun k => nextPlace^[k] (.init, 0) :=
    congrArg (fun f => (List.range 23).map f) (funext fun k => place_seqRun k (seqStart s))
  exact places.trans (by decide)

/-! ### PERM -/

/-- The frame of a state on the way through `PERM`: the state registers and the sequencer's place. -/
theorem onlyRegs_midPerm (s : State) (v : StateVec) (phase : Phase) (rnd : Fin 21) :
    { s with phase := phase, rnd := rnd }.OnlyRegs IsStateReg (s.midPerm v phase rnd) :=
  onlyRegs_setStateVec { s with phase := phase, rnd := rnd } v

theorem reg_midPerm_sReg (s : State) (v : StateVec) (phase : Phase) (rnd : Fin 21) (i : Fin 16) :
    (s.midPerm v phase rnd).reg (sReg i) = ⟨(v i).val, 31⟩ :=
  reg_setStateVec_sReg s v i

/-- Settles O34: `exec_perm` says what PERM leaves, and PERMUTE fixes the zero vector under the zero table. -/
theorem permAppliesPermute : Obligations.PermAppliesPermute := by
  intro s
  refine ⟨_, exec_perm s, reg_midPerm_sReg _ _ _ _, rfl, rfl, onlyRegs_midPerm _ _ _ _, ?_⟩
  intro zero start i
  rw [reg_midPerm_sReg, start, permute_zero zero]
  rfl

/-! ### The decompositions -/

/-- The whole effect of these commands, from every state, is `S <- f(Sv)`, where `f` may depend on the table. -/
def Applies (l : List Instr) (f : RcTable → StateVec → StateVec) : Prop :=
  ∀ s, execSeq l s = .next (s.setStateVec (f s.rc s.stateVec))

theorem Applies.append {l m : List Instr} {f g : RcTable → StateVec → StateVec} (first : Applies l f)
    (second : Applies m g) : Applies (l ++ m) fun rc v => g rc (f rc v) := by
  intro s
  refine (execSeq_append_eq_next_iff l m s _).2 ⟨_, first s, ?_⟩
  rw [second, stateVec_setStateVec, setStateVec_rc, setStateVec_setStateVec]

theorem applies_mext : Applies [.mext] fun _ => ext := fun s => execSeq_cons (exec_mext s) []

/-- The commands of one round, by its row, compute the round function. -/
def AppliesRound (commands : RowField → List Instr) (round : RcTable → Fin 21 → StateVec → StateVec) : Prop :=
  ∀ (r : RowField) (row : Fin 21), r.val = row.val → Applies (commands r) fun rc => round rc row

/-- Rounds after commands that apply `f` apply the round function row by row to what `f` gives. The commands before them
are needed: no rounds at all would leave `S` as it was, canonical or not. -/
theorem Applies.append_rounds {commands : RowField → List Instr} {round : RcTable → Fin 21 → StateVec → StateVec}
    (each : AppliesRound commands round) (rows : List (Fin 21)) {l : List Instr} {f : RcTable → StateVec → StateVec}
    (before : Applies l f) : Applies (l ++ (rows.map (Fin.castLE (by decide))).flatMap commands) fun rc v =>
      rounds round rc rows (f rc v) := by
  induction rows generalizing l f with
  | nil =>
    rw [List.map_nil, List.flatMap_nil, List.append_nil]
    exact before
  | cons row rows ih =>
    rw [List.map_cons, List.flatMap_cons, ← List.append_assoc]
    exact ih (before.append (each _ row rfl))

/-- The permutation in commands, given those of an external and of an internal round (`43_permutation_engine.md`
R189). -/
def permCommands (external internal : RowField → List Instr) : List Instr :=
  [.mext] ++ firstHalfRows.flatMap external ++ internalRows.flatMap internal ++ secondHalfRows.flatMap external

theorem applies_permute {external internal : RowField → List Instr} (hF : AppliesRound external roundF)
    (hP : AppliesRound internal roundP) : Applies (permCommands external internal) permute :=
  ((applies_mext.append_rounds hF [0, 1, 2, 3]).append_rounds hP
    [4, 5, 6, 7, 8, 9, 10, 11, 12, 13, 14, 15, 16]).append_rounds hF [17, 18, 19, 20]

/-- `roundCommands` is `permCommands` with one command for a round. -/
theorem applies_roundCommands : Applies roundCommands permute :=
  applies_permute (external := fun r => [.rndf r]) (internal := fun r => [.rndp r])
    (fun _ _ same s => execSeq_cons (exec_rndf same s) []) (fun _ _ same s => execSeq_cons (exec_rndp same s) [])

/-- `stepCommands` is `permCommands` with three commands for a round. -/
theorem applies_stepCommands : Applies stepCommands permute :=
  applies_permute (external := externalSteps) (internal := internalSteps) (fun _ _ => execSeq_externalSteps)
    (fun _ _ => execSeq_internalSteps)

theorem reg_setStateVec_tReg (s : State) (v : StateVec) (j : Fin 16) :
    (s.setStateVec v).reg (tReg j) = s.reg (tReg j) :=
  reg_setStateVec_other s v (Nat.not_lt.2 (Nat.le_add_right 16 j.val))

/-- Settles O36: all three write `PERMUTE(Sv)` to the state registers. -/
theorem permEqualsRoundAndStepCommands : Obligations.PermEqualsRoundAndStepCommands := by
  intro s
  have samePerm := midPerm_reg s (permute s.rc s.stateVec) .idle 0
  have keepsT := reg_setStateVec_tReg s (permute s.rc s.stateVec)
  exact ⟨_, _, _, exec_perm s, applies_roundCommands s, applies_stepCommands s,
    fun i => ⟨samePerm (sReg i), samePerm (sReg i)⟩,
    fun j => ⟨(samePerm (tReg j)).trans (keepsT j), keepsT j, keepsT j⟩⟩

end Sys2Proof.Machine
end

section
/-! PROOFS. What a command raises: `ARITH_OVERFLOW` where its width check fails, and otherwise nothing
(`60_exceptions.md` R203, R211). -/

namespace Sys2Proof.Machine

theorem isFieldUnit_of_isProducer {i : Instr} (producer : IsProducer i) : IsFieldUnit i := by
  cases i with
  | fadd | fmulc | fmul => trivial
  | _ => exact producer.elim

theorem not_overflows_of_not_isProducer {i : Instr} (h : ¬ IsProducer i) (s : State) : ¬ Overflows i s := by
  cases i with
  | fadd | fmulc | fmul => exact absurd trivial h
  | _ => exact id

/-- The commands without a width check leave FATAL as it is. -/
theorem exec_keeps_fatal {i : Instr} (legal : i.wf = true) (h : ¬ IsProducer i) (s : State) :
    ∃ t, exec i s = .next t ∧ t.fatal = s.fatal := by
  by_cases composite : IsComposite i
  · obtain ⟨t, run, fatal, -⟩ := compositeWritesAreCanonical i s legal composite
    exact ⟨t, run, fatal⟩
  · cases i with
    | fldc rd c => exact ⟨_, exec_fldc (cromAt_eq_constantWord s.rc legal) rd, rfl⟩
    | fred rd ra => exact ⟨_, exec_fred rd ra s, rfl⟩
    | fadd | fmulc | fmul => exact absurd trivial h
    | _ => exact absurd id composite

/-- The commands with a width check end as a producer does, and the check is on the width of their result. -/
theorem exec_producer {i : Instr} (legal : i.wf = true) (producer : IsProducer i) (s : State) :
    ∃ rd r, exec i s = .next (produce i rd r s) ∧ (Overflows i s ↔ 256 < r.bw) := by
  cases i with
  | fadd rd ra rb => exact ⟨rd, _, exec_fadd rd ra rb s, Iff.rfl⟩
  | fmulc rd ra c =>
    have entry := cromAt_eq_constantWord s.rc legal
    refine ⟨rd, _, exec_fmulc entry rd ra, ?_⟩
    simp [Overflows, entry]
  | fmul rd ra rb => exact ⟨rd, _, exec_fmul rd ra rb s, Iff.rfl⟩
  | _ => exact producer.elim

/-- Settles O40: only a producer checks a width, and it raises where its result does not fit. -/
theorem onlyProducersOverflow : Obligations.OnlyProducersOverflow := by
  refine ⟨rfl, fun i s legal alive => ?_⟩
  by_cases producer : IsProducer i
  · obtain ⟨rd, r, run, check⟩ := exec_producer legal producer s
    rw [run, check]
    by_cases wide : 256 < r.bw
    · rw [produce_of_tooWide wide, raise_of_not_fatal alive]
      exact ⟨_, rfl, iff_of_true rfl wide, fun _ => ⟨producer, rfl⟩⟩
    · rw [produce_of_fits (Nat.not_lt.1 wide)]
      exact ⟨_, rfl, iff_of_false (by simp [alive]) wide, fun h => absurd h wide⟩
  · obtain ⟨t, run, fatal⟩ := exec_keeps_fatal legal producer s
    have never := not_overflows_of_not_isProducer producer s
    exact ⟨t, run, iff_of_false (by simp [fatal, alive]) never, fun h => absurd h never⟩

end Sys2Proof.Machine
end

section
/-! PROOFS. Every step has a next state, and one that raises an error has changed nothing beside the error registers and
the reply (`60_exceptions.md` R206, R207, R223). -/

namespace Sys2Proof.Machine

/-! ### There is no stop -/

theorem exists_busWrite_eq_next (off : BitVec 12) (data : List Byte) (s : State) :
    ∃ t, busWrite off data s = .next t := by
  obtain run | ⟨w, i, -, -, run⟩ | ⟨w, reason, -, -, run⟩ | run | ⟨i, w, -, -, -, run⟩ | run :=
    busWrite_cases off data s
  · exact ⟨_, run⟩
  · obtain ⟨t, ran, -⟩ := exec_next i s
    exact ⟨t, run.trans ran⟩
  · exact ⟨_, run⟩
  · exact ⟨_, run⟩
  · exact ⟨_, run⟩
  · exact ⟨_, run⟩

/-- Settles O41, by the event that is served. -/
theorem everyStepHasNextState : Obligations.EveryStepHasNextState := by
  intro s
  cases events : s.pending with
  | nil => exact ⟨s, step_idle events⟩
  | cons e rest =>
    cases e with
    | resetPin level => exact ⟨_, step_resetPin events⟩
    | read off size => exact ⟨_, step_event events⟩
    | write off data =>
      cases line : s.resetLine with
      | true => exact ⟨_, step_in_reset events line nofun⟩
      | false =>
        rw [step_write events line]
        exact exists_busWrite_eq_next off data _

/-! ### Errors are precise -/

/-- The one error a reset can leave is CFG. -/
theorem resetEngine_err_of_fatal {s : State} (fatal : (resetEngine s).fatal = true) : (resetEngine s).err = .cfg :=
  if_pos fatal

/-- An event served with FATAL = 0 that leaves an error other than CFG has raised it, and done nothing else. -/
theorem Served.raised {s u t : State} {e : BusEvent} (served : Served s e u t) (alive : u.fatal = false)
    (fatal : t.fatal = true) (cause : t.err ≠ .cfg) :
    ∃ c w reply, t = { u.raised c w with reply := reply } := by
  have unchanged : ¬ u.fatal = true := by simp [alive]
  cases served with
  | nothing => exact absurd fatal unchanged
  | pin level =>
    unfold driveReset at fatal cause
    split at fatal
    · next released =>
      rw [if_pos released] at cause
      exact absurd (resetEngine_err_of_fatal fatal) cause
    · exact absurd fatal unchanged
  | read off size =>
    unfold busRead at fatal ⊢
    split at fatal
    · exact absurd fatal unchanged
    · rw [raise_of_not_fatal alive]
      exact ⟨_, _, _, rfl⟩
  | badWrite =>
    rw [raise_of_not_fatal alive]
    exact ⟨_, _, _, rfl⟩
  | command w i t _ decoded ran =>
    obtain ⟨t', ran', overflow, raised⟩ := onlyProducersOverflow.2 i u (wf_of_decodeWord decoded) alive
    obtain rfl : t' = t := by simpa [ran'] using ran
    obtain ⟨-, rfl⟩ := raised (overflow.1 fatal)
    exact ⟨_, _, _, rfl⟩
  | badWord =>
    rw [raise_of_not_fatal alive]
    exact ⟨_, _, _, rfl⟩
  | softReset => exact absurd (resetEngine_err_of_fatal fatal) cause
  | fieldWrite => exact absurd fatal unchanged

/-- Settles O51: `raised` sets the three error fields only. -/
theorem errorsArePrecise : Obligations.ErrorsArePrecise := by
  intro s t alive run fatal cause
  obtain ⟨-, rfl⟩ | ⟨e, rest, events, served⟩ := step_cases run
  · simp [alive] at fatal
  · obtain ⟨c, w, reply, rfl⟩ := served.raised (u := takeEvent rest s) alive fatal cause
    exact ⟨rfl, rfl, rfl, rfl, rfl, congrArg List.tail events⟩

end Sys2Proof.Machine
end

section
/-! PROOFS. The dead engine (`60_exceptions.md` R202, R207, R208): whatever the field registers hold, a step with
FATAL = 1 moves the host's side only, or resets. -/

namespace Sys2Proof.Machine

/-! ### The field registers set aside -/

/-- The same engine with other contents of the field registers. -/
def State.withRegs (s : State) (regs : Vector FieldReg 32) : State := { s with regs := regs }

theorem sameBeyondRegs_withRegs (s : State) (regs : Vector FieldReg 32) : s.SameBeyondRegs (s.withRegs regs) := by
  constructor <;> rfl

theorem State.SameBeyondRegs.eq_withRegs {s t : State} (h : s.SameBeyondRegs t) : t = s.withRegs t.regs :=
  State.ext rfl h.fatal h.err h.errInfo h.phase h.rnd h.rc h.resetLine h.pending h.reply

/-- Data reads are poisoned, and the other registers of the window do not show the field registers (`20_memory.md`
R64). -/
theorem readWord_withRegs {s : State} (dead : s.fatal = true) (regs : Vector FieldReg 32) (r : WindowReg) :
    readWord r (s.withRegs regs) = readWord r s := by
  cases r with
  | f | fbw => rw [readWord, readWord, dataWord_of_fatal (s := s.withRegs regs) dead, dataWord_of_fatal dead]
  | cmd | status | err | errInfo | cfg | ctrl | cromw => rfl

theorem busRead_withRegs {s : State} (dead : s.fatal = true) (off : BitVec 12) (size : Nat) :
    ∃ bytes, ∀ regs, busRead off size (s.withRegs regs) = { s.withRegs regs with reply := some bytes } := by
  unfold busRead
  cases legalRead off size with
  | some r =>
    refine ⟨wordBytes (readWord r s), fun regs => ?_⟩
    simp only [readWord_withRegs dead]
  | none =>
    refine ⟨poisonBytes size, fun regs => ?_⟩
    simp only [raise_of_fatal (s := s.withRegs regs) dead]

/-! ### A step of the dead engine -/

theorem driveReset_eq (level : Bool) (s : State) : driveReset level s =
    if s.resetLine = true ∧ level = false then resetEngine { s with resetLine := false }
    else { s with resetLine := level } := by
  simp [driveReset]

/-- The next step is a reset: the host writes CTRL with bit 0 set, or the reset input is released (`60_exceptions.md`
R208). -/
def State.ResetsNext (s : State) : Prop :=
  (∃ rest w, s.pending = .write 0x014 (wordBytes w) :: rest ∧ w.getLsbD 0 = true ∧ s.resetLine = false) ∨
  (∃ rest, s.pending = .resetPin false :: rest ∧ s.resetLine = true)

/-- What a step of the dead engine does, the same for every content of the field registers. -/
inductive DeadStep (s : State) : Prop where
  /-- the host's side moves, the engine stands -/
  | stands (line : Bool) (pending : List BusEvent) (reply : Option (List Byte))
    (run : ∀ regs, step (s.withRegs regs) =
      .next { s with regs := regs, resetLine := line, pending := pending, reply := reply })
  /-- the engine is reset -/
  | resets (cause : s.ResetsNext) (pending : List BusEvent)
    (run : ∀ regs, step (s.withRegs regs) =
      .next { State.resetWith s.rc with resetLine := false, pending := pending, reply := none })

section

variable {s : State} {rest : List BusEvent}

theorem deadStep_of_resetPin {level : Bool} (events : s.pending = .resetPin level :: rest) : DeadStep s := by
  by_cases released : s.resetLine = true ∧ level = false
  · obtain ⟨line, rfl⟩ := released
    refine .resets (.inr ⟨rest, events, line⟩) rest fun regs => ?_
    rw [step_resetPin (s := s.withRegs regs) events, driveReset_eq]
    exact congrArg Host.Outcome.next (if_pos ⟨line, rfl⟩)
  · refine .stands level rest none fun regs => ?_
    rw [step_resetPin (s := s.withRegs regs) events, driveReset_eq]
    exact congrArg Host.Outcome.next (if_neg released)

theorem deadStep_in_reset (line : s.resetLine = true) {e : BusEvent} (events : s.pending = e :: rest)
    (access : ∀ level, e ≠ .resetPin level) : DeadStep s :=
  .stands s.resetLine rest none fun regs => step_in_reset (s := s.withRegs regs) events line access

theorem deadStep_of_read (dead : s.fatal = true) (line : s.resetLine = false) {off : BitVec 12} {size : Nat}
    (events : s.pending = .read off size :: rest) : DeadStep s := by
  obtain ⟨bytes, answer⟩ := busRead_withRegs (s := takeEvent rest s) dead off size
  refine .stands s.resetLine rest (some bytes) fun regs => ?_
  rw [step_read (s := s.withRegs regs) events line]
  exact congrArg Host.Outcome.next (answer regs)

theorem deadStep_of_writeCtrl (line : s.resetLine = false) {w : Word}
    (events : s.pending = .write 0x014 (wordBytes w) :: rest) : DeadStep s := by
  have soft := fun regs => softResetFromEveryState (s.withRegs regs) w rest events line
  cases bit : w.getLsbD 0 with
  | true => exact .resets (.inl ⟨rest, w, events, bit, line⟩) rest fun regs => (soft regs).1 bit
  | false => exact .stands s.resetLine rest none fun regs => (soft regs).2 bit

theorem deadStep_of_write (dead : s.fatal = true) (line : s.resetLine = false) {off : BitVec 12} {data : List Byte}
    (events : s.pending = .write off data :: rest) : DeadStep s := by
  by_cases ctrl : off = 0x014 ∧ data.length = 4
  · obtain ⟨rfl, size⟩ := ctrl
    obtain ⟨w, word⟩ := (exists_wordOfBytes_iff data).2 size
    rw [wordBytes_of_wordOfBytes word] at events
    exact deadStep_of_writeCtrl line events
  · refine .stands s.resetLine rest none fun regs => ?_
    rw [step_write (s := s.withRegs regs) events line]
    exact busWrite_of_fatal (s := takeEvent rest (s.withRegs regs)) dead (not_and_or.1 ctrl)

end

/-- All that a step with FATAL = 1 can do. -/
theorem deadStep_of_fatal {s : State} (dead : s.fatal = true) : DeadStep s := by
  cases events : s.pending with
  | nil => exact .stands s.resetLine s.pending s.reply fun regs => step_idle (s := s.withRegs regs) events
  | cons e rest =>
    cases e with
    | resetPin level => exact deadStep_of_resetPin events
    | read off size =>
      cases line : s.resetLine with
      | true => exact deadStep_in_reset line events nofun
      | false => exact deadStep_of_read dead line events
    | write off data =>
      cases line : s.resetLine with
      | true => exact deadStep_in_reset line events nofun
      | false => exact deadStep_of_write dead line events

/-- Settles O49: a step of the dead engine that is no reset moves the host's side only. -/
theorem fatalLeavesOnlyByReset : Obligations.FatalLeavesOnlyByReset := by
  intro s t dead run
  cases deadStep_of_fatal dead with
  | stands line pending reply run' =>
    obtain rfl := Host.Outcome.next.inj (run.symm.trans (run' s.regs))
    exact .inl ⟨dead, rfl, rfl, rfl⟩
  | resets cause => exact .inr cause

/-! ### A malformed table -/

/-- A property of states that every step keeps is kept by runs of any length. -/
theorem run_keeps {M : Host.Core} {I : M.State → Prop} (kept : ∀ {s t}, I s → M.step s = .next t → I t) (n : Nat)
    {s t : M.State} (h : I s) (run : M.run n s = .next t) : I t := by
  induction n generalizing s with
  | zero =>
    injection run with run
    exact run ▸ h
  | succ n ih =>
    cases first : M.step s with
    | next u => exact ih (kept h first) ((run_succ_of_step first n).symm.trans run)
    | fault | refused => simp [Host.Core.run, first] at run

/-- Reset with a malformed table leaves the engine dead of it, whatever stands on the host's side. -/
theorem resetWith_deadOfTable {rc : RcTable} (malformed : ¬ rc.WellFormed) (line : Bool) (pending : List BusEvent)
    (reply : Option (List Byte)) :
    { State.resetWith rc with resetLine := line, pending := pending, reply := reply }.DeadOfTable := by
  obtain ⟨k, found⟩ := exists_firstBad_of_malformed malformed
  refine ⟨malformed, ?_, ?_, ?_, reg_resetWith rc⟩
  · simp [found]
  · simp [found]
  · simp [found, ofNat_toNat_of_firstBad found]

theorem State.DeadOfTable.step {s t : State} (h : s.DeadOfTable) (run : Machine.step s = .next t) :
    t.DeadOfTable := by
  cases deadStep_of_fatal h.fatal with
  | stands line pending reply run' =>
    obtain rfl := Host.Outcome.next.inj (run.symm.trans (run' s.regs))
    exact ⟨h.malformed, h.fatal, h.err, h.errInfo, h.regs⟩
  | resets _ pending run' =>
    obtain rfl := Host.Outcome.next.inj (run.symm.trans (run' s.regs))
    exact resetWith_deadOfTable h.malformed _ _ _

/-- Settles O48: being dead of the table `rc` holds at reset and is kept by every step, so by every run. -/
theorem malformedTableNeverRuns : Obligations.MalformedTableNeverRuns := by
  refine ⟨fun s t => State.DeadOfTable.step, fun rc events malformed => ?_, fun rc events n t malformed run => ?_⟩
  · exact resetWith_deadOfTable malformed false events none
  · have start := resetWith_deadOfTable malformed false events none
    have kept : ∀ {s t : State}, s.DeadOfTable ∧ s.rc = rc → step s = .next t → t.DeadOfTable ∧ t.rc = rc :=
      fun ⟨dead, table⟩ run => ⟨dead.step run, (constantRomNeverChanges _ _ run).trans table⟩
    obtain ⟨dead, rfl⟩ := run_keeps (M := core) kept n ⟨start, rfl⟩ run
    exact ⟨dead.fatal, dead.err, dead.errInfo, dead.regs⟩

/-! ### The field registers are hidden -/

/-- Two states the host cannot tell apart: the same, as after a reset, or dead and different in the field registers
only. -/
def State.SameToHost (s s' : State) : Prop := s' = s ∨ s.fatal = true ∧ ∃ regs, s' = s.withRegs regs

theorem State.SameToHost.beyond {s s' : State} (h : s.SameToHost s') : s.SameBeyondRegs s' := by
  obtain rfl | ⟨-, regs, rfl⟩ := h
  · exact sameBeyondRegs_withRegs s' s'.regs
  · exact sameBeyondRegs_withRegs s regs

theorem State.SameToHost.step {s s' : State} (h : s.SameToHost s') :
    ∃ u u', Machine.step s = .next u ∧ Machine.step s' = .next u' ∧ u.SameToHost u' := by
  obtain rfl | ⟨dead, regs, rfl⟩ := h
  · obtain ⟨u, run⟩ := everyStepHasNextState s'
    exact ⟨u, u, run, run, .inl rfl⟩
  · cases deadStep_of_fatal dead with
    | stands line pending reply run => exact ⟨_, _, run s.regs, run regs, .inr ⟨dead, regs, rfl⟩⟩
    | resets _ pending run => exact ⟨_, _, run s.regs, run regs, .inl rfl⟩

/-- Settles O50: every step keeps `SameToHost`, so runs of any length do. -/
theorem fatalHidesFieldRegisters : Obligations.FatalHidesFieldRegisters := by
  intro n s s' t t' dead beyond run run'
  have start : s.SameToHost s' := .inr ⟨dead, s'.regs, beyond.eq_withRegs⟩
  have last := (run_related (M := core) (R := State.SameToHost) (fun h => h.step) n start run run').beyond
  exact ⟨last.reply.symm, last⟩

end Sys2Proof.Machine
end

section
/-! PROOFS. Reset (`70_reset_and_hazards.md`): what its check of the table finds (R243) and what the reset input does
(R240). -/

namespace Sys2Proof.Machine

/-- The constants after the table are below `P`, so a bad entry is one of the table's. -/
theorem lt_336_of_bad {rc : RcTable} {k : Nat} (bad : ∃ w, cromAt rc k = some w ∧ P ≤ w.toNat) : k < 336 := by
  obtain ⟨w, entry, large⟩ := bad
  by_contra beyond
  exact Nat.not_lt.2 large (cromAt_lt_P_of_fixed (Nat.not_lt.1 beyond) entry)

/-- Settles O45: `firstBad_eq_some_iff` with its bound drawn in to the table. -/
theorem resetCheckFindsLeastBadEntry : Obligations.ResetCheckFindsLeastBadEntry := by
  intro rc
  refine ⟨firstBad_eq_none_iff rc, fun k => (firstBad_eq_some_iff rc k).trans ⟨?_, ?_⟩⟩
  · rintro ⟨bad, -, least⟩
    exact ⟨lt_336_of_bad bad, bad, fun j w below => least j below w⟩
  · rintro ⟨inTable, bad, least⟩
    exact ⟨bad, by omega, fun j below w => least j w below⟩

/-- Settles O47, by the event and the level the input had. -/
theorem resetPinHoldsAndResets : Obligations.ResetPinHoldsAndResets := by
  intro s rest
  refine ⟨fun events => ?_, fun off size events line => step_in_reset events line nofun,
    fun off data events line => step_in_reset events line nofun, fun events line => ?_, fun events line => ?_⟩
  · rw [step_resetPin events, driveReset_eq, if_neg (by simp)]
  · rw [step_resetPin events, driveReset_eq, if_pos ⟨line, rfl⟩]
    rfl
  · rw [step_resetPin events, driveReset_eq, if_neg (by simp [line]), ← line]
    rfl

end Sys2Proof.Machine
end

section
/-! PROOFS. One permutation by the normal protocol (`70_reset_and_hazards.md` R247): load `S[0..15]`, run `PERM`, read
back. -/

namespace Sys2Proof.Machine

/-! ### The steps of the protocol -/

/-- The engine is about to serve these events: it is neither dead nor held in reset. -/
structure State.Serves (s : State) (events : List BusEvent) : Prop where
  alive : s.fatal = false
  line : s.resetLine = false
  pending : s.pending = events

/-- The host's write of `x[i]` to `S[i]`. -/
def loadEvent (x : Fin 16 → Word) (i : Fin 16) : BusEvent :=
  .write (BitVec.ofNat 12 (0x080 + 4 * i.val)) (wordBytes (x i))

theorem loadEvents_eq_map (x : Fin 16 → Word) : loadEvents x = (List.finRange 16).map (loadEvent x) := rfl

/-- `S[i]` stands in the window at `F[i]`'s place (`20_memory.md` R51). -/
theorem toNat_offset_sReg (i : Fin 16) : (BitVec.ofNat 12 (0x080 + 4 * i.val)).toNat = 0x080 + 4 * (sReg i).val :=
  Nat.mod_eq_of_lt (by omega)

theorem sReg_injective : Function.Injective sReg := fun _ _ same => Fin.ext (Fin.ext_iff.1 same :)

theorem stateVec_of_reg {s : State} {i : Fin 16} {r : FieldReg} (h : s.reg (sReg i) = r) : s.stateVec i = toFp r.val :=
  congrArg (fun r : FieldReg => toFp r.val) h

section

variable {s : State} {rest : List BusEvent}

/-- Loading a word makes `S[i]` denote it modulo `P`, and no other element changes. -/
theorem step_loadEvent {x : Fin 16 → Word} {i : Fin 16} (ready : s.Serves (loadEvent x i :: rest)) :
    ∃ t, step s = .next t ∧ t.Serves rest ∧ t.rc = s.rc ∧ t.stateVec i = toFp (x i).toNat ∧
      ∀ j, j ≠ i → t.stateVec j = s.stateVec j := by
  obtain ⟨t, run, written, others, beyond⟩ :=
    (fieldRegisterReadsAndWrites s _ rest (sReg i) ready.line ready.alive).1 (x i) ready.pending (toNat_offset_sReg i)
  exact ⟨t, run, ⟨beyond.fatal.trans ready.alive, beyond.resetLine.trans ready.line, beyond.pending⟩, beyond.rc,
    stateVec_of_reg written, fun j other => stateVec_of_reg (others (sReg j) (sReg_injective.ne other))⟩

/-- The word 0x60000000 is `PERM`'s, and running it leaves `PERMUTE` of the state vector in `S`. -/
theorem step_perm (ready : s.Serves (.write 0x000 (wordBytes 0x60000000) :: rest)) :
    ∃ t, step s = .next t ∧ t.Serves rest ∧ t.stateVec = permute s.rc s.stateVec := by
  have run := (stepRunsDecodedCommand s 0x60000000 rest .perm ready.pending ready.line rfl).1 ready.alive
  exact ⟨_, run.trans (exec_perm (takeEvent rest s)), ⟨ready.alive, ready.line, rfl⟩, midPerm_stateVec _ _ _ _⟩

theorem step_readElement {i : Fin 16} (ready : s.Serves (.read (BitVec.ofNat 12 (0x080 + 4 * i.val)) 4 :: rest)) :
    step s = .next { takeEvent rest s with reply := some (wordBytes (BitVec.ofNat 32 (s.stateVec i).val)) } :=
  (fieldRegisterReadsAndWrites s _ rest (sReg i) ready.line ready.alive).2.1 ready.pending (toNat_offset_sReg i)

end

/-! ### The run -/

theorem run_add_of_run {M : Host.Core} {m : Nat} {s u : M.State} (first : M.run m s = .next u) (n : Nat) :
    M.run (m + n) s = M.run n u := by
  induction m generalizing s with
  | zero =>
    injection first with same
    rw [same, Nat.zero_add]
  | succ m ih =>
    cases one : M.step s with
    | next t =>
      rw [Nat.succ_add, run_succ_of_step one]
      exact ih ((run_succ_of_step one m).symm.trans first)
    | fault | refused => simp [Host.Core.run, one] at first

/-- Loading the elements still missing completes the state vector. What stood in `S` is forgotten. -/
theorem run_loadEvents {x : Fin 16 → Word} (missing : List (Fin 16)) {s : State} {rest : List BusEvent}
    (ready : s.Serves (missing.map (loadEvent x) ++ rest))
    (loaded : ∀ i, i ∉ missing → s.stateVec i = toFp (x i).toNat) :
    ∃ t, core.run missing.length s = .next t ∧ t.Serves rest ∧ t.rc = s.rc ∧
      t.stateVec = fun i => toFp (x i).toNat := by
  induction missing generalizing s with
  | nil => exact ⟨s, rfl, ready, rfl, funext fun i => loaded i List.not_mem_nil⟩
  | cons k missing ih =>
    obtain ⟨u, first, ready', table, written, others⟩ := step_loadEvent ready
    have loaded' : ∀ i, i ∉ missing → u.stateVec i = toFp (x i).toNat := by
      intro i present
      by_cases same : i = k
      · rw [same, written]
      · rw [others i same, loaded i (List.not_mem_cons_of_ne_of_not_mem same present)]
    obtain ⟨t, run, last⟩ := ih ready' loaded'
    rw [table] at last
    exact ⟨t, (run_succ_of_step (M := core) first _).trans run, last⟩

/-- Settles O60: sixteen steps load the vector whatever stood in `S`, one permutes it, and one reads element `i`. -/
theorem permutationProtocol : Obligations.PermutationProtocol := by
  intro s x i rest alive line events
  rw [loadEvents_eq_map, List.append_assoc] at events
  obtain ⟨t, load, ready, table, vector⟩ :=
    run_loadEvents (List.finRange 16) ⟨alive, line, events⟩ fun j absent => absurd (List.mem_finRange j) absent
  rw [List.length_finRange] at load
  obtain ⟨u, perm, ready, permuted⟩ := step_perm ready
  rw [table, vector] at permuted
  have read := step_readElement ready
  rw [permuted] at read
  have run := calc core.run 18 s
    _ = core.run 2 t := run_add_of_run (M := core) load 2
    _ = core.run 1 u := run_succ_of_step (M := core) perm 1
    _ = core.run 0 _ := run_succ_of_step (M := core) read 0
  exact ⟨_, run, rfl, ready.alive, rfl⟩

end Sys2Proof.Machine
end
